-- ==== Sys2Proof/Word.lean ====
section
/-! DEFINITION. The widths of MD_YM2413-CORE (00_scope.md R13, R15). Every value is unsigned. -/

namespace Sys2Proof

/-- A byte handed to the chip (20_memory.md R50, R56). -/
abbrev Byte := BitVec 8

/-- An address in the chip's register space (20_memory.md R50). -/
abbrev Addr := BitVec 8

/-- A time in milliseconds: NOW and DEADLINE (00_scope.md R13). -/
abbrev Time := BitVec 32

/-- A frequency in Hz, the source's `u16` (00_scope.md R13). -/
abbrev Freq := BitVec 16

/-- One command word, CMD[47:0] (30_encoding.md R70). -/
abbrev Cmd := BitVec 48

/-- A channel slot, 0 to 8 (00_scope.md R8). -/
abbrev Chan := Fin 9

end Sys2Proof
end

