-- ==== Sys2Proof/Syntax.lean ====
section
/-! DEFINITION. The commands, one constructor for each row of spec/opcode_table.json (30_encoding.md R72). -/

namespace Sys2Proof

/-- A command with its operands at the widths of 30_encoding.md R71. A channel operand keeps all sixteen values of
its field: 9 to 15 are encodable and make the command do nothing (R75). Every operand fits its field by its type, so
every value of Instr has an encoding; operands that do not fit belong to the assembler (WellFormed.lean, R85). -/
inductive Instr where
  /-- BEGIN (42_channel_commands.md R141). -/
  | beginCmd
  /-- NOTE_ON ch, freq, level, dur (R142). -/
  | noteOn (ch : BitVec 4) (freq : Freq) (level : BitVec 4) (dur : BitVec 16)
  /-- NOTE_OFF ch (R147). -/
  | noteOff (ch : BitVec 4)
  /-- TICK (R149); its time is the NOW input. -/
  | tick
  /-- SET_VOLUME ch, level (R151). -/
  | setVolume (ch : BitVec 4) (level : BitVec 4)
  /-- SET_RHYTHM en (R152). -/
  | setRhythm (en : Bool)
  /-- SET_INSTRUMENT ch, instr, sus (R153). -/
  | setInstrument (ch : BitVec 4) (instr : BitVec 4) (sus : Bool)
deriving DecidableEq, Repr

end Sys2Proof
end

