-- ==== Sys2Proof/WellFormed.lean ====
section
/-! DEFINITION. The assembler's terms and their well-formedness (30_encoding.md R85, R86). Instr itself needs no check:
its operands fit their fields by type. -/

namespace Sys2Proof

/-- A line of assembly: the seven commands (30_encoding.md R85), then the pseudo-instructions (R86). Operands are
plain numbers, so a term can hold one that does not fit its field. -/
inductive Asm where
  | beginCmd
  | noteOn (ch freq level dur : Nat)
  | noteOff (ch : Nat)
  | tick
  | setVolume (ch level : Nat)
  | setRhythm (en : Nat)
  | setInstrument (ch instr sus : Nat)
  /-- `NOP` (R86) -/
  | nop
  /-- `NOTE_ON ch, freq, level`, the untimed form (R86) -/
  | noteOnUntimed (ch freq level : Nat)
  /-- `SET_VOLUME_MAX ch` (R86) -/
  | setVolumeMax (ch : Nat)
  /-- `RHYTHM_ON` (R86) -/
  | rhythmOn
  /-- `RHYTHM_OFF` (R86) -/
  | rhythmOff
deriving DecidableEq, Repr

/-- Every operand fits its field; "An operand that does not fit its field is an assembler error" (30_encoding.md R85,
field widths R71). -/
def Asm.wellFormed : Asm → Bool
  | .beginCmd | .tick | .nop | .rhythmOn | .rhythmOff => true
  | .noteOn ch freq level dur =>
      decide (ch < 2 ^ 4) && decide (freq < 2 ^ 16) && decide (level < 2 ^ 4) && decide (dur < 2 ^ 16)
  | .noteOff ch => decide (ch < 2 ^ 4)
  | .setVolume ch level => decide (ch < 2 ^ 4) && decide (level < 2 ^ 4)
  | .setRhythm en => decide (en < 2 ^ 1)
  | .setInstrument ch instr sus => decide (ch < 2 ^ 4) && decide (instr < 2 ^ 4) && decide (sus < 2 ^ 1)
  | .noteOnUntimed ch freq level => decide (ch < 2 ^ 4) && decide (freq < 2 ^ 16) && decide (level < 2 ^ 4)
  | .setVolumeMax ch => decide (ch < 2 ^ 4)

end Sys2Proof
end

