-- ==== Sys2Proof/Decode.lean ====
section
/-! DEFINITION. Decoding and encoding of the 48-bit command word (30_encoding.md R70 to R80, R85, R86). -/

namespace Sys2Proof

/-- OP = CMD[47:44] (30_encoding.md R71). -/
def opField (w : Cmd) : BitVec 4 := w.extractLsb' 44 4

/-- CH = CMD[43:40] (R71, R75). -/
def chField (w : Cmd) : BitVec 4 := w.extractLsb' 40 4

/-- FREQ = CMD[39:24] (R71, R76). -/
def freqField (w : Cmd) : Freq := w.extractLsb' 24 16

/-- LEVEL = CMD[23:20] (R71, R77). -/
def levelField (w : Cmd) : BitVec 4 := w.extractLsb' 20 4

/-- DUR = CMD[19:4] (R71, R78). -/
def durField (w : Cmd) : BitVec 16 := w.extractLsb' 4 16

/-- F = CMD[0] (R71, R79). -/
def flagField (w : Cmd) : Bool := w.getLsbD 0

/-- What a word names: one of the seven commands, or a reserved opcode, which is ignored (R73, R80). -/
inductive Decoded where
  | command (i : Instr)
  /-- OP 0x0 or 0x8..0xF; the step does nothing but take the word (42_channel_commands.md R154). -/
  | reserved (op : BitVec 4)
deriving DecidableEq, Repr

/-- The decoder: the opcode alone selects the row (30_encoding.md R72), every word names exactly one row (R80), and
bits a command does not use are not looked at (R74). -/
def decode (w : Cmd) : Decoded :=
  match (opField w).toNat with
  | 1 => .command .beginCmd
  | 2 => .command (.noteOn (chField w) (freqField w) (levelField w) (durField w))
  | 3 => .command (.noteOff (chField w))
  | 4 => .command .tick
  | 5 => .command (.setVolume (chField w) (levelField w))
  | 6 => .command (.setRhythm (flagField w))
  | 7 => .command (.setInstrument (chField w) (levelField w) (flagField w))
  | _ => .reserved (opField w)

/-- The word with the given fields and RSV = 0, bit 47 first (30_encoding.md R71). -/
def packWord (op ch : BitVec 4) (freq : Freq) (level : BitVec 4) (dur : BitVec 16) (flag : Bool) : Cmd :=
  op ++ ch ++ freq ++ level ++ dur ++ 0#3 ++ BitVec.ofBool flag

/-- The assembler's word of a command, every field the command does not use set to 0 (R71, R85). -/
def encode : Instr → Cmd
  | .beginCmd => packWord 1 0 0 0 0 false
  | .noteOn ch freq level dur => packWord 2 ch freq level dur false
  | .noteOff ch => packWord 3 ch 0 0 0 false
  | .tick => packWord 4 0 0 0 0 false
  | .setVolume ch level => packWord 5 ch 0 level 0 false
  | .setRhythm en => packWord 6 0 0 0 0 en
  | .setInstrument ch instr sus => packWord 7 ch 0 instr 0 sus

/-- The command a well-formed assembly term stands for; none for `NOP`, whose word is a reserved one (R86). -/
def Asm.toInstr : Asm → Option Instr
  | .beginCmd => some .beginCmd
  | .noteOn ch freq level dur =>
      some (.noteOn (BitVec.ofNat 4 ch) (BitVec.ofNat 16 freq) (BitVec.ofNat 4 level) (BitVec.ofNat 16 dur))
  | .noteOff ch => some (.noteOff (BitVec.ofNat 4 ch))
  | .tick => some .tick
  | .setVolume ch level => some (.setVolume (BitVec.ofNat 4 ch) (BitVec.ofNat 4 level))
  | .setRhythm en => some (.setRhythm (en == 1))
  | .setInstrument ch instr sus => some (.setInstrument (BitVec.ofNat 4 ch) (BitVec.ofNat 4 instr) (sus == 1))
  | .nop => none
  | .noteOnUntimed ch freq level =>
      some (.noteOn (BitVec.ofNat 4 ch) (BitVec.ofNat 16 freq) (BitVec.ofNat 4 level) 0)
  | .setVolumeMax ch => some (.setVolume (BitVec.ofNat 4 ch) 0)
  | .rhythmOn => some (.setRhythm true)
  | .rhythmOff => some (.setRhythm false)

/-- The assembler: an operand that does not fit is an error, never truncated (R85); `NOP` is the all-zero word (R86). -/
def Asm.assemble (a : Asm) : Option Cmd :=
  if a.wellFormed then
    match a.toInstr with
    | some i => some (encode i)
    | none => some 0#48
  else none

/-- The command the decoder reads from the low `nbits` bits of `w` (the table gives every row 48, 30_encoding.md R70);
none for a reserved opcode. The word is parallel, so there is no byte order (20_memory.md R54). -/
def decodeTableWord (nbits w : Nat) : Option Instr :=
  match decode (BitVec.ofNat 48 (w % 2 ^ nbits)) with
  | .command i => some i
  | .reserved _ => none

end Sys2Proof
end

