-- ==== Sys2Proof/Config.lean ====
section
/-! DEFINITION. The construction parameters (00_scope.md R3, R8 to R14; 92_eei_decisions.md, open parameters).
They are fixed once, before the block runs; State carries a Config and no step changes it (log 7). -/

namespace Sys2Proof

/-- The five percussion roles (00_scope.md R12, R17). -/
inductive Role where
  /-- bass drum -/
  | bd
  /-- hi-hat -/
  | hh
  /-- snare -/
  | sd
  /-- tom -/
  | tom
  /-- cymbal -/
  | cym
deriving DecidableEq, Repr

/-- One construction of the block. The last two fields make an invalid construction impossible: FSAM is at least 1
(60_exceptions.md R203: "A configuration with `FSAM = 0` is not a block") and ROLE_OF_SLOT is a bijection
(00_scope.md R12). Each address base leaves room for nine channels (92_eei_decisions.md, range 0..247). -/
structure Config where
  /-- FSAM, the chip sample rate in Hz (00_scope.md R10). -/
  fsam : Nat
  /-- A_RHY, the rhythm control register (00_scope.md R11). -/
  aRhy : Addr
  /-- A_FLO, the base of the FNum-low registers (00_scope.md R11). -/
  aFlo : Fin 248
  /-- A_CTL, the base of the instrument/control registers (00_scope.md R11). -/
  aCtl : Fin 248
  /-- A_VOL, the base of the volume registers (00_scope.md R11). -/
  aVol : Fin 248
  /-- ROLE_OF_SLOT: entry k is the role of slot 4 + k (00_scope.md R12). -/
  roleOfSlot : Vector Role 5
  fsam_pos : 0 < fsam := by decide
  roles_nodup : roleOfSlot.toList.Nodup := by decide
deriving DecidableEq, Repr

/-- The default parameters (00_scope.md R10 to R12). The addresses are general knowledge of the YM2413 that the
spec adopts (93_implementation_defined.md G1; log 10). -/
def Config.default : Config where
  fsam := 49716
  aRhy := 0x0E#8
  aFlo := 0x10
  aCtl := 0x20
  aVol := 0x30
  roleOfSlot := #v[.bd, .hh, .sd, .tom, .cym]

/-- Build a block from raw parameters, refusing those outside their ranges: "A model refuses to build one"
(60_exceptions.md R203). -/
def Config.build (fsam aRhy aFlo aCtl aVol : Nat) (roles : Vector Role 5) : Option Config :=
  if h : 0 < fsam ∧ aRhy < 256 ∧ aFlo < 248 ∧ aCtl < 248 ∧ aVol < 248 ∧ roles.toList.Nodup then
    some
      { fsam := fsam
        aRhy := BitVec.ofNat 8 aRhy
        aFlo := ⟨aFlo, h.2.2.1⟩
        aCtl := ⟨aCtl, h.2.2.2.1⟩
        aVol := ⟨aVol, h.2.2.2.2.1⟩
        roleOfSlot := roles
        fsam_pos := h.1
        roles_nodup := h.2.2.2.2.2 }
  else none

/-- SEMITONE_FNUM[0..11], the table whose values the source does not give and no rule reads (00_scope.md R14,
10_state.md R31). It has no body: nothing can be proved of its values (log 8). -/
opaque Config.semitoneFnum : Vector (BitVec 9) 12

end Sys2Proof
end

