-- ==== Sys2Proof/Machine/State.lean ====
section
/-! DEFINITION. The block's state as plain data (10_state.md), its ports, the reasons a step can stop, and reset. -/

namespace Sys2Proof.Machine

/-- STATE[ch] (10_state.md R21). The 2-bit encoding 3 is never written and is left out of the type (log 11). -/
inductive KeyState where
  | idle
  /-- key asserted, no scheduled release -/
  | sounding
  /-- key asserted, auto-off deadline pending -/
  | soundingTimed
deriving DecidableEq, Repr

/-- One entry of the channel register file (10_state.md R20 to R27). -/
structure Channel where
  /-- STATE[ch] (R21) -/
  key : KeyState
  /-- DEADLINE[ch] (R22) -/
  deadline : Time
  /-- BLOCK[ch] (R23) -/
  block : BitVec 3
  /-- FNUM[ch] (R24) -/
  fnum : BitVec 9
  /-- ATT[ch] (R25) -/
  att : BitVec 4
  /-- SUS[ch] (R26) -/
  sus : Bool
  /-- INSTR[ch] (R27) -/
  instr : BitVec 4
deriving DecidableEq, Repr

/-- The reset value of a channel (10_state.md R21 to R27, 70_reset_and_hazards.md R220). -/
def Channel.reset : Channel where
  key := .idle
  deadline := 0
  block := 0
  fnum := 0
  att := 0
  sus := false
  instr := 0

/-- A port event (43_write_sequencer.md R180). -/
inductive PortEvent where
  /-- PORT_BEGIN -/
  | portBegin
  /-- ADDR(a) -/
  | addr (a : Addr)
  /-- DATA(d) -/
  | data (d : Byte)
deriving DecidableEq, Repr

/-- What the host presents in one step (10_state.md R33, log 1). -/
inductive HostInput where
  /-- A command word with the NOW value sampled when it is taken. -/
  | command (cmd : Cmd) (now : Time)
  /-- A command word presented while the one before is still in progress (20_memory.md R61, log 4). -/
  | overlapped (cmd : Cmd) (now : Time)
  /-- The hardware reset (70_reset_and_hazards.md R220, log 5). -/
  | hardwareReset
deriving DecidableEq, Repr

/-- SHADOW as the list of its entries that hold a value, by rising address; an address not listed reads as none
(10_state.md R30, log 9). -/
abbrev Memory := List Host.Cell

/-- Everything the spec gives the block, its parameters and its ports. -/
structure State where
  /-- the construction parameters, which no step changes (log 7) -/
  config : Config
  /-- the channel register file (10_state.md R20) -/
  channels : Vector Channel 9
  /-- RHY_EN (10_state.md R28) -/
  rhyEn : Bool
  /-- LAST_VALID (10_state.md R29) -/
  lastValid : Bool
  /-- LAST_ADDR (10_state.md R29) -/
  lastAddr : Addr
  /-- SHADOW (10_state.md R30) -/
  shadow : Memory
  /-- the NOW port as sampled for the current command (10_state.md R33, log 2) -/
  now : Time
  /-- what the host has still to present, oldest first (10_state.md R34, log 1) -/
  inputs : List HostInput
  /-- the port events emitted so far, oldest first (00_scope.md R18, log 6) -/
  events : List PortEvent
deriving DecidableEq, Repr

/-- The machine right after reset, with the default parameters and nothing presented (70_reset_and_hazards.md R220). -/
def State.reset : State where
  config := Config.default
  channels := Vector.replicate 9 Channel.reset
  rhyEn := false
  lastValid := false
  lastAddr := 0
  shadow := []
  now := 0
  inputs := []
  events := []

/-- The block raises no exception (60_exceptions.md R200), so there is no fault: nothing raises one. -/
inductive Fault where
deriving DecidableEq, Repr

/-- The reasons a step is refused. -/
inductive Refusal where
  /-- Raised by an arm of `exec` that has no meaning yet; no arm does. Safe. -/
  | notModelled (mnemonic : String)
  /-- Raised by `step` when the host presents a command while another is in progress, to which the spec gives no
  meaning (60_exceptions.md R209). Safe. -/
  | overlappedCommand
deriving DecidableEq, Repr

end Sys2Proof.Machine
end

