-- ==== Sys2Proof/Machine/Ops.lean ====
section
/-! DEFINITION. The named operations over SHADOW, the channel register file, the port and the host's inputs.
The block has no traps, so there is no exception entry or return here (60_exceptions.md R200, R206). -/

namespace Sys2Proof.Machine

/-! ### SHADOW -/

/-- The canonical form of SHADOW: addresses strictly rising and inside the 256-register space (20_memory.md R50). -/
abbrev Memory.wf (m : Memory) : Prop := m.Pairwise (fun c d => c.1 < d.1) ∧ ∀ c ∈ m, c.1 < 256

/-- SHADOW[a]: none or the last value written (10_state.md R30). -/
def Memory.read : Memory → Nat → Option Byte
  | [], _ => none
  | (b, v) :: m, a => if b = a then some v else Memory.read m a

/-- SHADOW[a] <- v, keeping the canonical form (10_state.md R30). -/
def Memory.write : Memory → Nat → Byte → Memory
  | [], a, v => [(a, v)]
  | (b, w) :: m, a, v =>
      if a < b then (a, v) :: (b, w) :: m
      else if a = b then (a, v) :: m
      else (b, w) :: Memory.write m a v

/-! ### The channel register file -/

/-- The nine channels in ascending order (00_scope.md R8; 42_channel_commands.md R150(c)). -/
def allChannels : List Chan := [0, 1, 2, 3, 4, 5, 6, 7, 8]

/-- X[ch]: all the registers of channel `ch` (00_scope.md R16). -/
def State.channel (s : State) (ch : Chan) : Channel := s.channels[ch.val]

/-- X[ch] <- v: replace the registers of channel `ch` (00_scope.md R16). -/
def State.setChannel (s : State) (ch : Chan) (c : Channel) : State :=
  { s with channels := s.channels.set ch.val c }

/-- "key asserted" is `Sounding` or `SoundingTimed` (10_state.md R21, R32). -/
def Channel.keyed (c : Channel) : Bool := c.key != .idle

/-- The 2-bit code of STATE[ch] (10_state.md R21). -/
def KeyState.code : KeyState → BitVec 2
  | .idle => 0
  | .sounding => 1
  | .soundingTimed => 2

/-! ### The chip port -/

/-- Emit(e) (00_scope.md R16). -/
def emit (e : PortEvent) (s : State) : State := { s with events := s.events ++ [e] }

/-- The address phase of ChipWrite: skipped when the address is the one latched last (43_write_sequencer.md R181). -/
def latchAddress (a : Addr) (s : State) : State :=
  if s.lastValid = true ∧ s.lastAddr = a then s
  else { emit (.addr a) s with lastAddr := a, lastValid := true }

/-- The data phase of ChipWrite, always sent, with the record in SHADOW (43_write_sequencer.md R181, R183). -/
def sendData (a : Addr) (d : Byte) (s : State) : State :=
  { emit (.data d) s with shadow := s.shadow.write a.toNat d }

/-- ChipWrite(a, d), the only register-write primitive (43_write_sequencer.md R181). -/
def chipWrite (a : Addr) (d : Byte) (s : State) : State := sendData a d (latchAddress a s)

/-! ### Reset, ignored words and the host's inputs -/

/-- Every register of the block at its reset value; the parameters and the ports are not registers
(70_reset_and_hazards.md R220). Shared by the hardware reset and BEGIN (R221). -/
def resetRegisters (s : State) : State :=
  { s with
    channels := Vector.replicate 9 Channel.reset
    rhyEn := false
    lastValid := false
    lastAddr := 0
    shadow := [] }

/-- `ignore`: no state change and no event (00_scope.md R16, 60_exceptions.md R201). -/
def ignore (s : State) : State := s

/-- Take a command off the host's list, sampling NOW with it (10_state.md R33). -/
def sampleInputs (now : Time) (rest : List HostInput) (s : State) : State := { s with now := now, inputs := rest }

/-- The step with nothing presented: "Nothing else in the block moves" (10_state.md R20; log 3). -/
def waitForHost (s : State) : Host.Outcome State Fault Refusal := .next s

/-- The step that takes a hardware reset: registers at their reset values, no event (70_reset_and_hazards.md R220). -/
def takeReset (rest : List HostInput) (s : State) : Host.Outcome State Fault Refusal :=
  .next (resetRegisters { s with inputs := rest })

/-- The step on an overlapped command: the model "refuses such a run" (60_exceptions.md R209; log 4). -/
def refuseOverlap : Host.Outcome State Fault Refusal := .refused .overlappedCommand

/-- The step on a reserved opcode: ignored (42_channel_commands.md R154). -/
def runReserved (s : State) : Host.Outcome State Fault Refusal := .next (ignore s)

end Sys2Proof.Machine
end

