-- ==== Sys2Proof/Machine/Operands.lean ====
section
/-! DEFINITION. Operands of the commands: the channel index, the chip addresses, the percussion role
(30_encoding.md R75; 00_scope.md R11, R12). -/

namespace Sys2Proof.Machine

/-- CH names a channel when it is 0 to 8; 9 to 15 is an invalid channel index (30_encoding.md R75). -/
def channelIndex (ch : BitVec 4) : Option Chan := if h : ch.toNat < 9 then some ⟨ch.toNat, h⟩ else none

/-- "The per-channel address of channel `ch` is `base + ch`" (00_scope.md R11). -/
def slotAddr (base : Fin 248) (ch : Chan) : Addr := BitVec.ofNat 8 (base.val + ch.val)

/-- A_FLO + ch (20_memory.md R51). -/
def floAddr (c : Config) (ch : Chan) : Addr := slotAddr c.aFlo ch

/-- A_CTL + ch (20_memory.md R51). -/
def ctlAddr (c : Config) (ch : Chan) : Addr := slotAddr c.aCtl ch

/-- A_VOL + ch (20_memory.md R51). -/
def volAddr (c : Config) (ch : Chan) : Addr := slotAddr c.aVol ch

/-- ROLE(ch) for the slots 4 to 8, none for the others (10_state.md R32, 00_scope.md R12). -/
def roleOfChannel (c : Config) (ch : Chan) : Option Role :=
  if h : 4 ≤ ch.val then some (c.roleOfSlot[ch.val - 4]'(by omega)) else none

/-- ROLEBIT(r), the role's bit in the rhythm byte and its code at the BUILD_RHYTHM port (30_encoding.md R82). -/
def roleBit : Role → BitVec 3
  | .hh => 0
  | .cym => 1
  | .tom => 2
  | .sd => 3
  | .bd => 4

/-- The role code that targets no role; SET_RHYTHM uses 7 of the codes 5 to 7 (30_encoding.md R82,
42_channel_commands.md R152). -/
def undefinedRole : BitVec 3 := 7

end Sys2Proof.Machine
end

