-- ==== Sys2Proof/Machine/Flags.lean ====
section
/-! DEFINITION. The block has no flags (10_state.md R35). In their place stand the signals derived from the state
(10_state.md R32). -/

namespace Sys2Proof.Machine

/-- IS_PERC(ch), the percussion path selector (10_state.md R32). -/
def isPerc (s : State) (ch : Chan) : Bool := s.rhyEn && decide (4 ≤ ch.val)

/-- The role channel `ch` plays: ROLE(ch) on the percussion path, none on the melodic path (10_state.md R32). -/
def percRole (s : State) (ch : Chan) : Option Role := if isPerc s ch then roleOfChannel s.config ch else none

/-- One slot's share of KEYSNAP: its role's bit when its key is asserted (10_state.md R32). -/
def keySnapBit (s : State) (ch : Chan) : BitVec 5 :=
  match roleOfChannel s.config ch with
  | some r => if (s.channel ch).keyed then 1#5 <<< (roleBit r).toNat else 0
  | none => 0

/-- KEYSNAP[4:0], read from STATE whatever RHY_EN is (10_state.md R32). -/
def keySnap (s : State) : BitVec 5 := allChannels.foldl (fun acc ch => acc ||| keySnapBit s ch) 0

/-- A note that TICK releases: SoundingTimed with DEADLINE at or before NOW, an unsigned 32-bit compare
(42_channel_commands.md R149). -/
def expired (s : State) (ch : Chan) : Bool :=
  (s.channel ch).key == .soundingTimed && (s.channel ch).deadline.ule s.now

end Sys2Proof.Machine
end

