-- ==== Sys2Proof/Machine/FrequencyEncoder.lean ====
section
/-! DEFINITION. The FrequencyEncoder's two combinational units (40_frequency_encoder.md R100 to R107). -/

namespace Sys2Proof.Machine

/-- BOUNDARY[0..7] in Hz (00_scope.md R9). -/
def boundary : List Freq := [0, 65, 130, 261, 523, 1046, 2093, 4186]

/-- Scan the boundaries from index `i`; the first one strictly above `freq` gives the block, none gives 7
(40_frequency_encoder.md R101). -/
def scanBoundary (freq : Freq) : Nat → List Freq → BitVec 3
  | _, [] => 7
  | i, b :: rest => if freq < b then BitVec.ofNat 3 i else scanBoundary freq (i + 1) rest

/-- CALC_BLOCK (40_frequency_encoder.md R101; the reading of 90_conflicts.md C1). -/
def calcBlock (freq : Freq) : BitVec 3 := scanBoundary freq 0 boundary

/-- CALC_FNUM: exact numerator, truncating division, a 35-bit result that loses nothing
(40_frequency_encoder.md R103, R104; 90_conflicts.md C3). -/
def calcFNum (fsam : Nat) (freq : Freq) (block : BitVec 3) : BitVec 35 :=
  BitVec.ofNat 35 (freq.toNat * 2 ^ (19 - block.toNat) / fsam)

/-- Every use of CALC_FNUM keeps the low 9 bits (40_frequency_encoder.md R106). -/
def fnumOf (fsam : Nat) (freq : Freq) : BitVec 9 := (calcFNum fsam freq (calcBlock freq)).setWidth 9

end Sys2Proof.Machine
end

