-- ==== Sys2Proof/Machine/RegisterBuilder.lean ====
section
/-! DEFINITION. The RegisterBuilder's combinational units (41_register_builder.md R120 to R126; layouts 30_encoding.md
R81 to R84). -/

namespace Sys2Proof.Machine

/-- BUILD_CTRL (41_register_builder.md R120). -/
def buildInstrumentByte (sustainOn keyOn : Bool) (octave : BitVec 8) (fnum : BitVec 16) : Byte :=
  0#2 ++ BitVec.ofBool sustainOn ++ BitVec.ofBool keyOn ++ octave.extractLsb' 0 3 ++ BitVec.ofBool (fnum.getLsbD 8)

/-- FLO_BYTE (41_register_builder.md R122). -/
def floByte (fnum : BitVec 9) : Byte := fnum.extractLsb' 0 8

/-- VOL_BYTE from the channel's INSTR and ATT (41_register_builder.md R123). -/
def volByte (instr att : BitVec 4) : Byte := instr ++ att

/-- The key bits of BUILD_RHYTHM: for a role code below 5, clear that bit and set it to `keyOn`; for 5 to 7 keep the
snapshot (41_register_builder.md R125). -/
def rhythmKeys (role : BitVec 3) (keyOn : Bool) (snap : BitVec 5) : BitVec 5 :=
  if 5 ≤ role.toNat then snap
  else (snap &&& ~~~(1#5 <<< role.toNat)) ||| ((BitVec.ofBool keyOn).setWidth 5 <<< role.toNat)

/-- BUILD_RHYTHM (41_register_builder.md R125). -/
def buildRhythmByte (enable : Bool) (role : BitVec 3) (keyOn : Bool) (snap : BitVec 5) : Byte :=
  0#2 ++ BitVec.ofBool enable ++ rhythmKeys role keyOn snap

end Sys2Proof.Machine
end

