-- ==== Sys2Proof/Machine/Notes.lean ====
section
/-! DEFINITION. NOTE_ON, NOTE_OFF and TICK (42_channel_commands.md R142 to R150). -/

namespace Sys2Proof.Machine

/-- The write that carries a key bit: the shared rhythm register on the percussion path, the channel's own control
register on the melodic path, from the registers as they stand (42_channel_commands.md R142(b), R144, R146). -/
def writeKey (ch : Chan) (keyOn : Bool) (s : State) : State :=
  match percRole s ch with
  | some r => chipWrite s.config.aRhy (buildRhythmByte s.rhyEn (roleBit r) keyOn (keySnap s)) s
  | none =>
      chipWrite (ctlAddr s.config ch)
        (buildInstrumentByte (s.channel ch).sus keyOn ((s.channel ch).block.setWidth 8) ((s.channel ch).fnum.setWidth 16)) s

/-- The volume write, built from the registers as they stand (42_channel_commands.md R142(c), R151). -/
def writeVolume (ch : Chan) (s : State) : State :=
  chipWrite (volAddr s.config ch) (volByte (s.channel ch).instr (s.channel ch).att) s

/-- BLOCK, FNUM and ATT of a NOTE_ON (42_channel_commands.md R142). -/
def loadNote (ch : Chan) (freq : Freq) (level : BitVec 4) (s : State) : State :=
  s.setChannel ch
    { s.channel ch with block := calcBlock freq, fnum := fnumOf s.config.fsam freq, att := level }

/-- STATE and DEADLINE of a NOTE_ON; the deadline wraps modulo 2^32 (42_channel_commands.md R142, R145). -/
def startNote (ch : Chan) (dur : BitVec 16) (s : State) : State :=
  if dur = 0 then s.setChannel ch { s.channel ch with key := .sounding, deadline := 0 }
  else s.setChannel ch { s.channel ch with key := .soundingTimed, deadline := s.now + dur.setWidth 32 }

/-- NOTE_ON on a valid channel: (a) the FNum low byte, (b) the key byte, (c) the volume byte, in that order
(42_channel_commands.md R142). -/
def noteOn (ch : Chan) (freq : Freq) (level : BitVec 4) (dur : BitVec 16) (s : State) : State :=
  let s₁ := loadNote ch freq level s
  let s₂ := chipWrite (floAddr s₁.config ch) (floByte (s₁.channel ch).fnum) s₁
  startNote ch dur (writeVolume ch (writeKey ch true s₂))

/-- STATE[ch] <- Idle; DEADLINE[ch] <- 0 (42_channel_commands.md R146). -/
def stopNote (ch : Chan) (s : State) : State :=
  s.setChannel ch { s.channel ch with key := .idle, deadline := 0 }

/-- KEY_OFF(ch), shared by NOTE_OFF and TICK (42_channel_commands.md R146). -/
def keyOff (ch : Chan) (s : State) : State := stopNote ch (writeKey ch false s)

/-- What TICK does at one channel (42_channel_commands.md R149). -/
def tickChannel (s : State) (ch : Chan) : State := if expired s ch then keyOff ch s else s

/-- NOTE_ON (42_channel_commands.md R142 to R145). -/
def execNoteOn (ch : BitVec 4) (freq : Freq) (level : BitVec 4) (dur : BitVec 16) (s : State) :
    Host.Outcome State Fault Refusal :=
  match channelIndex ch with
  | some c => .next (noteOn c freq level dur s)
  | none => .next (ignore s)

/-- NOTE_OFF: the channel test, then the Idle test (42_channel_commands.md R147, 60_exceptions.md R205). -/
def execNoteOff (ch : BitVec 4) (s : State) : Host.Outcome State Fault Refusal :=
  match channelIndex ch with
  | some c => if (s.channel c).key = .idle then .next (ignore s) else .next (keyOff c s)
  | none => .next (ignore s)

/-- TICK: the channels in ascending order, each seeing what the ones before it left (42_channel_commands.md R149,
R150(c)). -/
def execTick (s : State) : Host.Outcome State Fault Refusal := .next (allChannels.foldl tickChannel s)

end Sys2Proof.Machine
end

