-- ==== Sys2Proof/Machine/Settings.lean ====
section
/-! DEFINITION. BEGIN, SET_VOLUME, SET_RHYTHM and SET_INSTRUMENT (42_channel_commands.md R141, R151 to R153). -/

namespace Sys2Proof.Machine

/-- BEGIN: every register to its reset value, then PORT_BEGIN; no chip register is written (42_channel_commands.md
R141, 43_write_sequencer.md R184). -/
def execBegin (s : State) : Host.Outcome State Fault Refusal := .next (emit .portBegin (resetRegisters s))

/-- SET_VOLUME, in every channel state (42_channel_commands.md R151). -/
def execSetVolume (ch level : BitVec 4) (s : State) : Host.Outcome State Fault Refusal :=
  match channelIndex ch with
  | some c => .next (writeVolume c (s.setChannel c { s.channel c with att := level }))
  | none => .next (ignore s)

/-- SET_RHYTHM: RHY_EN, then the rhythm byte with no role targeted (42_channel_commands.md R152). -/
def execSetRhythm (en : Bool) (s : State) : Host.Outcome State Fault Refusal :=
  let s₁ := { s with rhyEn := en }
  .next (chipWrite s₁.config.aRhy (buildRhythmByte en undefinedRole false (keySnap s₁)) s₁)

/-- SET_INSTRUMENT: INSTR and SUS, no port event (42_channel_commands.md R153). -/
def execSetInstrument (ch instr : BitVec 4) (sus : Bool) (s : State) : Host.Outcome State Fault Refusal :=
  match channelIndex ch with
  | some c => .next (s.setChannel c { s.channel c with instr := instr, sus := sus })
  | none => .next (ignore s)

end Sys2Proof.Machine
end

