-- ==== Sys2Proof/Machine/Dispatch.lean ====
section
/-! DEFINITION. One arm for each command (42_channel_commands.md R140). -/

namespace Sys2Proof.Machine

def exec (i : Instr) (s : State) : Host.Outcome State Fault Refusal :=
  match i with
  | .beginCmd => Sys2Proof.Machine.execBegin s
  | .noteOn ch freq level dur => Sys2Proof.Machine.execNoteOn ch freq level dur s
  | .noteOff ch => Sys2Proof.Machine.execNoteOff ch s
  | .tick => Sys2Proof.Machine.execTick s
  | .setVolume ch level => Sys2Proof.Machine.execSetVolume ch level s
  | .setRhythm en => Sys2Proof.Machine.execSetRhythm en s
  | .setInstrument ch instr sus => Sys2Proof.Machine.execSetInstrument ch instr sus s

end Sys2Proof.Machine
end

