-- ==== Sys2Proof/Machine/Step.lean ====
section
/-! DEFINITION. One step: take what the host presents next and run it to completion (10_state.md R20,
42_channel_commands.md R140). -/

namespace Sys2Proof.Machine

/-- Decode a command word and run it (42_channel_commands.md R140). -/
def runCommand (cmd : Cmd) (s : State) : Host.Outcome State Fault Refusal :=
  match decode cmd with
  | .command i => exec i s
  | .reserved _ => runReserved s

/-- One step of the block. -/
def step (s : State) : Host.Outcome State Fault Refusal :=
  match s.inputs with
  | [] => waitForHost s
  | .command cmd now :: rest => runCommand cmd (sampleInputs now rest s)
  | .overlapped _ _ :: _ => refuseOverlap
  | .hardwareReset :: rest => takeReset rest s

/-- `s` with the low `nbits` bits of `w` presented next as a command, NOW left as it is; the rest of the host's list
follows it (log 12). -/
def State.withFetchWord (s : State) (nbits w : Nat) : State :=
  { s with inputs := .command (BitVec.ofNat 48 (w % 2 ^ nbits)) s.now :: s.inputs }

end Sys2Proof.Machine
end

