-- ==== Sys2Proof/Machine/Assembler.lean ====
section
/-! DEFINITION. The assembler's text: one command a line, comma-separated operands in decimal or 0x hex, the NOW value
as a comment `@t=<ms>` (30_encoding.md R85, R86; log 17). -/

namespace Sys2Proof.Machine

/-- The value of a digit in a base up to 16. -/
def digitValue (base : Nat) (c : Char) : Option Nat :=
  let n := c.toNat
  let v := if 48 ≤ n ∧ n ≤ 57 then n - 48 else if 97 ≤ n ∧ n ≤ 102 then n - 87 else if 65 ≤ n ∧ n ≤ 70 then n - 55 else base
  if v < base then some v else none

/-- The number a row of digits adds to `acc`. -/
def digitsValue (base : Nat) : List Char → Nat → Option Nat
  | [], acc => some acc
  | c :: cs, acc =>
      match digitValue base c with
      | some d => digitsValue base cs (acc * base + d)
      | none => none

/-- An operand in decimal or 0x hex (R85). -/
def numberValue : List Char → Option Nat
  | [] => none
  | ['0', 'x'] => none
  | '0' :: 'x' :: cs => digitsValue 16 cs 0
  | cs => digitsValue 10 cs 0

/-- Drop the spaces at both ends. -/
def trimSpaces (cs : List Char) : List Char :=
  ((cs.dropWhile (· == ' ')).reverse.dropWhile (· == ' ')).reverse

/-- The parts of a line between occurrences of `sep`. -/
def splitOnChar (sep : Char) : List Char → List (List Char)
  | [] => [[]]
  | c :: cs =>
      match splitOnChar sep cs with
      | [] => [[c]]
      | p :: ps => if c == sep then [] :: p :: ps else (c :: p) :: ps

/-- The comma-separated operands after the mnemonic (R85). -/
def operandValues (cs : List Char) : Option (List Nat) :=
  if trimSpaces cs = [] then some []
  else (splitOnChar ',' cs).mapM (fun p => numberValue (trimSpaces p))

/-- The term a mnemonic and its operands write: R85's table, then R86's. -/
def asmOf (mnemonic : List Char) (operands : List Nat) : Option Asm :=
  match operands with
  | [] =>
      if mnemonic = "BEGIN".toList then some .beginCmd
      else if mnemonic = "TICK".toList then some .tick
      else if mnemonic = "NOP".toList then some .nop
      else if mnemonic = "RHYTHM_ON".toList then some .rhythmOn
      else if mnemonic = "RHYTHM_OFF".toList then some .rhythmOff
      else none
  | [a] =>
      if mnemonic = "NOTE_OFF".toList then some (.noteOff a)
      else if mnemonic = "SET_RHYTHM".toList then some (.setRhythm a)
      else if mnemonic = "SET_VOLUME_MAX".toList then some (.setVolumeMax a)
      else none
  | [a, b] => if mnemonic = "SET_VOLUME".toList then some (.setVolume a b) else none
  | [a, b, c] =>
      if mnemonic = "SET_INSTRUMENT".toList then some (.setInstrument a b c)
      else if mnemonic = "NOTE_ON".toList then some (.noteOnUntimed a b c)
      else none
  | [a, b, c, d] => if mnemonic = "NOTE_ON".toList then some (.noteOn a b c d) else none
  | _ => none

/-- One line without its time comment. -/
def parseCommand (line : List Char) : Option Asm :=
  let cs := trimSpaces line
  match operandValues (cs.dropWhile (· != ' ')) with
  | some ops => asmOf (cs.takeWhile (· != ' ')) ops
  | none => none

/-- The NOW value of the comment `t=<ms>`, which must fit 32 bits (R85). -/
def parseTime (comment : List Char) : Option Time :=
  match trimSpaces comment with
  | 't' :: '=' :: cs =>
      match numberValue cs with
      | some n => if n < 2 ^ 32 then some (BitVec.ofNat 32 n) else none
      | none => none
  | _ => none

/-- One line of a program listing as the host's input: the command word, and NOW from the comment, or `before`, the
NOW of the line before, where there is none. An error of the assembler gives none. -/
def assembleLine (before : Time) (line : List Char) : Option HostInput :=
  match splitOnChar '@' line with
  | [text] =>
      match (parseCommand text).bind Asm.assemble with
      | some w => some (.command w before)
      | none => none
  | [text, comment] =>
      match (parseCommand text).bind Asm.assemble, parseTime comment with
      | some w, some t => some (.command w t)
      | _, _ => none
  | _ => none

end Sys2Proof.Machine
end

