-- ==== Sys2Proof/Safety.lean ====
section
/-! DEFINITION. The terms the claims use: what a sequence of chip writes shows at the port, what a chip that obeys the
port protocol holds, the invariants, and what a run of the block may do. -/

namespace Sys2Proof.Machine

/-! ### The port -/

/-- The address the block holds to be latched (10_state.md R29). -/
def latched (s : State) : Option Addr := if s.lastValid then some s.lastAddr else none

/-- The port events of register writes in order, given the address latched before them: an address phase only when
the address is not the last one, a data phase always (43_write_sequencer.md R181, R183). -/
def writeEvents : Option Addr → List (Addr × Byte) → List PortEvent
  | _, [] => []
  | l, (a, d) :: ws => (if l = some a then [.data d] else [.addr a, .data d]) ++ writeEvents (some a) ws

/-- The same writes with every address phase sent (43_write_sequencer.md R185). -/
def uncachedEvents : List (Addr × Byte) → List PortEvent
  | [] => []
  | (a, d) :: ws => .addr a :: .data d :: uncachedEvents ws

/-- The last byte that a list of writes puts at an address, none where it writes nothing there. -/
def lastWrite : List (Addr × Byte) → Nat → Option Byte
  | [], _ => none
  | (b, d) :: ws, a => (lastWrite ws a).or (if b.toNat = a then some d else none)

/-- `t` comes from `s` by exactly these register writes: their events follow the earlier ones, the address cache names
the last of them, and SHADOW reads as before at every address they do not write (43_write_sequencer.md R181). -/
structure ChipWrites (ws : List (Addr × Byte)) (s t : State) : Prop where
  events : t.events = s.events ++ writeEvents (latched s) ws
  lastAddr : t.lastAddr = (ws.getLast?.map Prod.fst).getD s.lastAddr
  lastValid : t.lastValid = (s.lastValid || !ws.isEmpty)
  shadow : ∀ a, t.shadow.read a = (lastWrite ws a).or (s.shadow.read a)

/-- The parameters and the input ports are as before. -/
structure SameHost (s t : State) : Prop where
  config : t.config = s.config
  now : t.now = s.now
  inputs : t.inputs = s.inputs

/-- The channel `ch` holds `c` afterwards and every other channel is as before. -/
structure OnlyChannel (ch : Chan) (c : Channel) (s t : State) : Prop where
  written : t.channel ch = c
  others : ∀ c', c' ≠ ch → t.channel c' = s.channel c'

/-- The port events a step adds (42_channel_commands.md R140). -/
def emitted (s t : State) : List PortEvent := t.events.drop s.events.length

/-- A data phase. -/
def PortEvent.isData : PortEvent → Bool
  | .data _ => true
  | _ => false

/-! ### TICK -/

/-- The note of channel `ch` is released by a TICK now (42_channel_commands.md R149). -/
def due (s : State) (ch : Chan) : Bool :=
  decide ((s.channel ch).key = .soundingTimed ∧ (s.channel ch).deadline.toNat ≤ s.now.toNat)

/-- The channel after its key-off (42_channel_commands.md R146). -/
def Channel.released (c : Channel) : Channel := { c with key := .idle, deadline := 0 }

/-- `s` with the due channels below `ch` already released (42_channel_commands.md R150(c)). -/
def releasedBelow (s : State) (ch : Chan) : State :=
  { s with channels := Vector.ofFn fun c => if due s c && decide (c < ch) then (s.channel c).released else s.channel c }

/-- The key-off write of channel `ch` in a TICK: the shared rhythm register with the earlier releases already cleared
from the snapshot, or the channel's control register (42_channel_commands.md R146, R150(c)). -/
def releaseWrite (s : State) (ch : Chan) : Addr × Byte :=
  match percRole s ch with
  | some r => (s.config.aRhy, buildRhythmByte s.rhyEn (roleBit r) false (keySnap (releasedBelow s ch)))
  | none =>
      (BitVec.ofNat 8 (s.config.aCtl.val + ch.val),
        buildInstrumentByte (s.channel ch).sus false ((s.channel ch).block.setWidth 8) ((s.channel ch).fnum.setWidth 16))

/-- The key-off writes of a TICK, in ascending channel order (42_channel_commands.md R149). -/
def releaseWrites (s : State) : List (Addr × Byte) := (allChannels.filter (due s)).map (releaseWrite s)

/-! ### The chip's side of the port -/

/-- What is known of a chip that obeys 43_write_sequencer.md R185: the latched address and the registers written. -/
structure ChipView where
  latch : Option Addr
  regs : Memory
deriving DecidableEq, Repr

/-- One port event at the chip. What PORT_BEGIN does is outside the block (43_write_sequencer.md R184), so nothing is
known after it; a data phase with no known latch may have overwritten any register (log 13). -/
def ChipView.receive (v : ChipView) : PortEvent → ChipView
  | .portBegin => { latch := none, regs := [] }
  | .addr a => { v with latch := some a }
  | .data d =>
      match v.latch with
      | some a => { v with regs := v.regs.write a.toNat d }
      | none => { v with regs := [] }

/-- What is known of the chip after a list of events, starting from a chip of which nothing is known. -/
def chipAfter (es : List PortEvent) : ChipView := es.foldl ChipView.receive { latch := none, regs := [] }

/-! ### Addresses -/

/-- The 28 addresses the block may write (20_memory.md R51). -/
def chipAddresses (c : Config) : List Addr :=
  c.aRhy :: (allChannels.map (floAddr c) ++ allChannels.map (ctlAddr c) ++ allChannels.map (volAddr c))

/-- No two of the 28 addresses coincide, as with the defaults (92_eei_decisions.md, open parameters). -/
abbrev AddressesDistinct (c : Config) : Prop := (chipAddresses c).Nodup

/-! ### Invariants -/

/-- The registers agree with one another (10_state.md R37(b), (d), (e)), and SHADOW is in its canonical form. -/
structure RegistersAgree (s : State) : Prop where
  shadow_wf : s.shadow.wf
  deadline_zero : ∀ ch, (s.channel ch).key ≠ .soundingTimed → (s.channel ch).deadline = 0
  fresh : s.lastValid = false → s.lastAddr = 0 ∧ s.shadow = []
  cached : s.lastValid = true → ∃ d, s.shadow.read s.lastAddr.toNat = some d

/-- The RegisterImage tells the truth about a chip only this block writes (20_memory.md R62, 43_write_sequencer.md
R185): the cached address is the latched one, and every recorded value is the register's. -/
structure ImageTrue (s : State) : Prop where
  latch : s.lastValid = true → (chipAfter s.events).latch = some s.lastAddr
  regs : ∀ a d, s.shadow.read a = some d → (chipAfter s.events).regs.read a = some d

/-- Every recorded address is one of the 28 (20_memory.md R51). -/
def ShadowInMap (s : State) : Prop :=
  ∀ a d, s.shadow.read a = some d → ∃ b ∈ chipAddresses s.config, b.toNat = a

/-- No command leaves an FNum-low address latched (42_channel_commands.md R143(f)). -/
def LatchNotFlo (s : State) : Prop :=
  s.lastValid = true → ∀ ch, s.lastAddr ≠ floAddr s.config ch

/-! ### The command word -/

/-- The bits of the word that a command uses; all others are don't-care (30_encoding.md R71, R72, R74). -/
def careMask : Instr → Cmd
  | .beginCmd => 0xF00000000000#48
  | .noteOn .. => 0xFFFFFFFFFFF0#48
  | .noteOff .. => 0xFF0000000000#48
  | .tick => 0xF00000000000#48
  | .setVolume .. => 0xFF0000F00000#48
  | .setRhythm .. => 0xF00000000001#48
  | .setInstrument .. => 0xFF0000F00001#48

/-- The same by opcode; a reserved opcode uses no other field (30_encoding.md R72, R74). -/
def careMaskOfOp : Nat → Cmd
  | 2 => 0xFFFFFFFFFFF0#48
  | 3 => 0xFF0000000000#48
  | 5 => 0xFF0000F00000#48
  | 6 => 0xF00000000001#48
  | 7 => 0xFF0000F00001#48
  | _ => 0xF00000000000#48

/-- The number of a word with the given fields (30_encoding.md R71: `OP<<44 | CH<<40 | FREQ<<24 | LEVEL<<20 | DUR<<4 |
F`, the fields not overlapping). -/
def wordNumber (op ch freq level dur flag : Nat) : Nat :=
  op * 2 ^ 44 + ch * 2 ^ 40 + freq * 2 ^ 24 + level * 2 ^ 20 + dur * 2 ^ 4 + flag

end Sys2Proof.Machine
end

