-- ==== Sys2Proof/Certificates/Slice0/Obligations.lean ====
section
/-! DEFINITION. The statements about the block, for the provers. -/

open Sys2Proof Sys2Proof.Machine

/-! ### The command word -/

/-- 30_encoding.md R71, R72, R74: the decoder answers a command on exactly the words that agree with its encoding on
the bits the command uses. It gives decode (encode i) = i, and that no other word is read as i. -/
def Obligations.DecodeReadsExactlyTheWordsOfACommand : Prop :=
  ∀ (i : Instr), decode (encode i) = .command i ∧ ∀ w : Cmd, decode w = .command i ↔ w &&& careMask i = encode i

/-- 30_encoding.md R71: the assembler's word, field by field, unused fields 0. -/
def Obligations.EncodingPlacesEveryField : Prop :=
  (encode .beginCmd).toNat = wordNumber 1 0 0 0 0 0 ∧
  (∀ ch freq level dur, (encode (.noteOn ch freq level dur)).toNat =
    wordNumber 2 ch.toNat freq.toNat level.toNat dur.toNat 0) ∧
  (∀ ch, (encode (.noteOff ch)).toNat = wordNumber 3 ch.toNat 0 0 0 0) ∧
  (encode .tick).toNat = wordNumber 4 0 0 0 0 0 ∧
  (∀ ch level, (encode (.setVolume ch level)).toNat = wordNumber 5 ch.toNat 0 level.toNat 0 0) ∧
  (∀ en, (encode (.setRhythm en)).toNat = wordNumber 6 0 0 0 0 en.toNat) ∧
  (∀ ch instr sus, (encode (.setInstrument ch instr sus)).toNat = wordNumber 7 ch.toNat 0 instr.toNat 0 sus.toNat)

/-- 42_channel_commands.md R154, 30_encoding.md R73: the reserved words are those with opcode 0 or 8..15, and running
one changes no state and emits no event. -/
def Obligations.ReservedOpcodesAreIgnored : Prop :=
  ∀ w : Cmd, ((∃ op, decode w = .reserved op) ↔ (w.toNat / 2 ^ 44 = 0 ∨ 8 ≤ w.toNat / 2 ^ 44)) ∧
    (w.toNat / 2 ^ 44 = 0 ∨ 8 ≤ w.toNat / 2 ^ 44 → ∀ s : State, runCommand w s = .next s)

/-- 30_encoding.md R74: two words that differ only in don't-care bits execute identically, and the assembler writes
those bits as 0. -/
def Obligations.DontCareBitsAreIgnored : Prop :=
  (∀ (w w' : Cmd), w &&& careMaskOfOp (w.toNat / 2 ^ 44) = w' &&& careMaskOfOp (w.toNat / 2 ^ 44) →
    ∀ s : State, runCommand w s = runCommand w' s) ∧
  ∀ i : Instr, encode i &&& ~~~careMask i = 0#48

/-- 30_encoding.md R87: the seven worked encodings. -/
def Obligations.WorkedEncodings : Prop :=
  (Asm.noteOn 0 440 0 50).assemble = some 0x2001B8000320#48 ∧
  (Asm.noteOff 3).assemble = some 0x330000000000#48 ∧
  Asm.tick.assemble = some 0x400000000000#48 ∧
  (Asm.setVolume 2 15).assemble = some 0x520000F00000#48 ∧
  (Asm.setRhythm 1).assemble = some 0x600000000001#48 ∧
  (Asm.setInstrument 5 3 1).assemble = some 0x750000300001#48 ∧
  Asm.beginCmd.assemble = some 0x100000000000#48

/-- Words written out from the layout of 30_encoding.md R71 decode to the commands they stand for, junk in unused
fields included (95_test_vectors.md V-OFF-6, V-TICK-6, V-RHY-3, V-RSV-2). -/
def Obligations.WrittenOutWordsDecode : Prop :=
  decode 0x2001B8000320#48 = .command (.noteOn 0 440 0 50) ∧
  decode 0x30FFFFFFFFFF#48 = .command (.noteOff 0) ∧
  decode 0x4FFFFFFFFFFF#48 = .command .tick ∧
  decode 0x520000F00000#48 = .command (.setVolume 2 15) ∧
  decode 0x6FFFFFFFFFFE#48 = .command (.setRhythm false) ∧
  decode 0x750000300001#48 = .command (.setInstrument 5 3 true) ∧
  decode 0x100000000000#48 = .command .beginCmd ∧
  decode 0x8123456789AB#48 = .reserved 8

/-- 30_encoding.md R85: each form assembles to the word of R71 when its operands fit their fields, and is an error
when one does not: nothing is truncated. -/
def Obligations.AssemblerNeverTruncates : Prop :=
  (∀ ch freq level dur, (Asm.noteOn ch freq level dur).assemble =
    if ch < 16 ∧ freq < 65536 ∧ level < 16 ∧ dur < 65536 then
      some (BitVec.ofNat 48 (wordNumber 2 ch freq level dur 0)) else none) ∧
  (∀ ch, (Asm.noteOff ch).assemble =
    if ch < 16 then some (BitVec.ofNat 48 (wordNumber 3 ch 0 0 0 0)) else none) ∧
  (∀ ch level, (Asm.setVolume ch level).assemble =
    if ch < 16 ∧ level < 16 then some (BitVec.ofNat 48 (wordNumber 5 ch 0 level 0 0)) else none) ∧
  (∀ en, (Asm.setRhythm en).assemble =
    if en < 2 then some (BitVec.ofNat 48 (wordNumber 6 0 0 0 0 en)) else none) ∧
  (∀ ch instr sus, (Asm.setInstrument ch instr sus).assemble =
    if ch < 16 ∧ instr < 16 ∧ sus < 2 then
      some (BitVec.ofNat 48 (wordNumber 7 ch 0 instr 0 sus)) else none)

/-- 30_encoding.md R86: the pseudo-instructions and their expansions; NOP's word is ignored. -/
def Obligations.PseudoInstructionsExpand : Prop :=
  Asm.nop.assemble = some 0x000000000000#48 ∧
  (decode 0x000000000000#48 = .reserved 0 ∧ ∀ s : State, runCommand 0x000000000000#48 s = .next s) ∧
  (∀ ch freq level, (Asm.noteOnUntimed ch freq level).assemble = (Asm.noteOn ch freq level 0).assemble) ∧
  (∀ ch, (Asm.setVolumeMax ch).assemble = (Asm.setVolume ch 0).assemble) ∧
  Asm.rhythmOn.assemble = (Asm.setRhythm 1).assemble ∧
  Asm.rhythmOff.assemble = (Asm.setRhythm 0).assemble

/-! ### The frequency encoder -/

/-- 40_frequency_encoder.md R101: the first boundary strictly above the frequency, 7 where there is none. -/
def Obligations.BlockIsTheFirstBoundaryAbove : Prop :=
  ∀ freq : Freq,
    (∀ (i : Nat) (b : Nat), [0, 65, 130, 261, 523, 1046, 2093, 4186][i]? = some b → b > freq.toNat →
      (∀ (j : Nat) (b' : Nat), j < i → [0, 65, 130, 261, 523, 1046, 2093, 4186][j]? = some b' → b' ≤ freq.toNat) →
      (calcBlock freq).toNat = i) ∧
    (freq.toNat ≥ 4186 → calcBlock freq = 7)

/-- 40_frequency_encoder.md R103, R104: the quotient is exact for every positive FSAM, and never passes the largest
numerator. -/
def Obligations.FNumIsTheExactQuotient : Prop :=
  ∀ (fsam : Nat) (freq : Freq) (block : BitVec 3), 1 ≤ fsam →
    (calcFNum fsam freq block).toNat = freq.toNat * 2 ^ (19 - block.toNat) / fsam ∧
    (calcFNum fsam freq block).toNat ≤ 34359214080

/-- 40_frequency_encoder.md R105: zero frequency gives 0 in every block, and nothing is clamped. -/
def Obligations.FNumCornerCases : Prop :=
  (∀ (fsam : Nat) (block : BitVec 3), 1 ≤ fsam → calcFNum fsam 0 block = 0) ∧
  (calcFNum 49716 65535 0).toNat = 691109 ∧
  (∀ fsam freq, (fnumOf fsam freq).toNat = (calcFNum fsam freq (calcBlock freq)).toNat % 512)

/-- 40_frequency_encoder.md R102, R107: the blocks and the FNum ranges of the NOTE_ON path with the default FSAM. -/
def Obligations.NoteFrequencyRanges : Prop :=
  ∀ freq : Freq,
    let b := (calcBlock freq).toNat
    let raw := (calcFNum 49716 freq (calcBlock freq)).toNat
    (freq.toNat ≤ 64 → b = 1 ∧ raw ≤ 337) ∧
    (65 ≤ freq.toNat ∧ freq.toNat ≤ 129 → b = 2 ∧ 171 ≤ raw ∧ raw ≤ 340) ∧
    (130 ≤ freq.toNat ∧ freq.toNat ≤ 260 → b = 3 ∧ 171 ≤ raw ∧ raw ≤ 342) ∧
    (261 ≤ freq.toNat ∧ freq.toNat ≤ 522 → b = 4 ∧ 172 ≤ raw ∧ raw ≤ 344) ∧
    (523 ≤ freq.toNat ∧ freq.toNat ≤ 1045 → b = 5 ∧ 172 ≤ raw ∧ raw ≤ 344) ∧
    (1046 ≤ freq.toNat ∧ freq.toNat ≤ 2092 → b = 6 ∧ 172 ≤ raw ∧ raw ≤ 344) ∧
    (2093 ≤ freq.toNat ∧ freq.toNat ≤ 6214 → b = 7 ∧ 172 ≤ raw ∧ raw ≤ 511) ∧
    (6215 ≤ freq.toNat → b = 7 ∧ 512 ≤ raw ∧ raw ≤ 5399)

/-! ### The register builder -/

/-- 41_register_builder.md R120: `0b00, sustainOn, keyOn, octave[2:0], fnum[8]`, for every input. -/
def Obligations.InstrumentByteFields : Prop :=
  ∀ (sus key : Bool) (octave : BitVec 8) (fnum : BitVec 16),
    (buildInstrumentByte sus key octave fnum).toNat =
      sus.toNat * 32 + key.toNat * 16 + octave.toNat % 8 * 2 + fnum.toNat / 256 % 2

/-- 41_register_builder.md R125: the enable bit on bit 5 on every path; a role code below 5 gets `keyOn` and leaves the
other key bits, a code of 5 to 7 leaves them all. -/
def Obligations.RhythmByteFields : Prop :=
  ∀ (enable key : Bool) (role : BitVec 3) (snap : BitVec 5) (k : Nat),
    (buildRhythmByte enable role key snap).getLsbD k =
      if k = 5 then enable
      else if 5 < k then false
      else if role.toNat < 5 ∧ k = role.toNat then key
      else snap.getLsbD k

/-- 41_register_builder.md R122, R123: the FNum-low byte and the volume byte. -/
def Obligations.LowAndVolumeBytes : Prop :=
  (∀ fnum : BitVec 9, (floByte fnum).toNat = fnum.toNat % 256) ∧
  (∀ instr att : BitVec 4, (volByte instr att).toNat = instr.toNat * 16 + att.toNat)

/-- 10_state.md R32: KEYSNAP has a role's bit set exactly when the slot that plays the role is not Idle, whatever
RHY_EN is; every role is played by some slot of 4 to 8; and 30_encoding.md R82's bit of each role. -/
def Obligations.KeySnapshotFollowsTheSlots : Prop :=
  ∀ s : State,
    (∀ (ch : Chan) (h : 4 ≤ ch.val),
      (keySnap s).getLsbD (roleBit (s.config.roleOfSlot[ch.val - 4]'(by omega))).toNat =
        decide ((s.channel ch).key ≠ .idle)) ∧
    (∀ r : Role, ∃ (ch : Chan) (h : 4 ≤ ch.val), s.config.roleOfSlot[ch.val - 4]'(by omega) = r) ∧
    ((roleBit .hh).toNat = 0 ∧ (roleBit .cym).toNat = 1 ∧ (roleBit .tom).toNat = 2 ∧ (roleBit .sd).toNat = 3 ∧
      (roleBit .bd).toNat = 4)

/-! ### The write sequencer -/

/-- 43_write_sequencer.md R181: ChipWrite, with its frame. -/
def Obligations.ChipWriteEffect : Prop :=
  ∀ (a : Addr) (d : Byte) (s : State),
    let t := chipWrite a d s
    (s.lastValid = true ∧ s.lastAddr = a → t.events = s.events ++ [.data d]) ∧
    (¬ (s.lastValid = true ∧ s.lastAddr = a) → t.events = s.events ++ [.addr a, .data d]) ∧
    t.lastValid = true ∧ t.lastAddr = a ∧
    t.shadow.read a.toNat = some d ∧ (∀ b, b ≠ a.toNat → t.shadow.read b = s.shadow.read b) ∧
    (∀ ch, t.channel ch = s.channel ch) ∧ t.rhyEn = s.rhyEn ∧ SameHost s t

/-- 43_write_sequencer.md R182: the comparison is with the single most recent address, so writes to a, b, a send three
address phases. -/
def Obligations.AlternatingWritesSendEveryAddress : Prop :=
  ∀ (a b : Addr) (d e f : Byte) (s : State), a ≠ b → latched s ≠ some a →
    emitted s (chipWrite a f (chipWrite b e (chipWrite a d s))) =
      [.addr a, .data d, .addr b, .data e, .addr a, .data f]

/-- 43_write_sequencer.md R183: a data phase is never suppressed, the same value at the same address included. -/
def Obligations.RepeatedWriteStillSendsData : Prop :=
  ∀ (a : Addr) (d : Byte) (s : State),
    (chipWrite a d (chipWrite a d s)).events = (chipWrite a d s).events ++ [.data d]

/-- 43_write_sequencer.md R185: whatever the chip holds, if the address the block has cached is the one latched, the
events of any ChipWrites leave it with the same latch and registers as if every address phase were sent. The chip is
the model's ChipView, which obeys R185's assumption (log 13). -/
def Obligations.SkippedAddressPhasesAreInvisible : Prop :=
  ∀ (v : ChipView) (s : State) (ws : List (Addr × Byte)), (∀ a, latched s = some a → v.latch = some a) →
    (emitted s (ws.foldl (fun t w => chipWrite w.1 w.2 t) s)).foldl ChipView.receive v =
      (uncachedEvents ws).foldl ChipView.receive v

/-! ### The commands: completion, effect and frame -/

/-- 42_channel_commands.md R141, 70_reset_and_hazards.md R221: BEGIN leaves the reset state, whatever was sounding, and
emits PORT_BEGIN alone. The parameters and the host's ports are not registers (log 1, 2, 6, 7). -/
def Obligations.BeginResetsTheBlock : Prop :=
  ∀ s : State, exec .beginCmd s = .next
    { State.reset with config := s.config, now := s.now, inputs := s.inputs, events := s.events ++ [.portBegin] }

/-- 42_channel_commands.md R142, R144, R145: NOTE_ON ignores an invalid channel; on a valid one it makes three writes in
the order FNum low, key byte, volume. The key byte goes to the shared rhythm register on the percussion path, with the
enable bit and the role's key bit set, and to the channel's control register on the melodic path. The deadline wraps
modulo 2^32. Everything else is as before. -/
def Obligations.NoteOnEffect : Prop :=
  ∀ (ch : BitVec 4) (freq : Freq) (level : BitVec 4) (dur : BitVec 16) (s : State),
    (9 ≤ ch.toNat → exec (.noteOn ch freq level dur) s = .next s) ∧
    ∀ h : ch.toNat < 9,
      let c : Chan := ⟨ch.toNat, h⟩
      let fn : BitVec 9 := BitVec.ofNat 9 (freq.toNat * 2 ^ (19 - (calcBlock freq).toNat) / s.config.fsam)
      ∃ t, exec (.noteOn ch freq level dur) s = .next t ∧
        ChipWrites
          [(BitVec.ofNat 8 (s.config.aFlo.val + ch.toNat), floByte fn),
           (if h4 : s.rhyEn = true ∧ 4 ≤ ch.toNat then
              (s.config.aRhy,
                buildRhythmByte true (roleBit (s.config.roleOfSlot[ch.toNat - 4]'(by omega))) true (keySnap s))
            else
              (BitVec.ofNat 8 (s.config.aCtl.val + ch.toNat),
                buildInstrumentByte (s.channel c).sus true ((calcBlock freq).setWidth 8) (fn.setWidth 16))),
           (BitVec.ofNat 8 (s.config.aVol.val + ch.toNat), volByte (s.channel c).instr level)] s t ∧
        OnlyChannel c
          { key := if dur.toNat > 0 then .soundingTimed else .sounding
            deadline := if dur.toNat > 0 then BitVec.ofNat 32 (s.now.toNat + dur.toNat) else 0
            block := calcBlock freq
            fnum := fn
            att := level
            sus := (s.channel c).sus
            instr := (s.channel c).instr } s t ∧
        t.rhyEn = s.rhyEn ∧ SameHost s t

/-- 42_channel_commands.md R143(d), (e), 41_register_builder.md R124: NOTE_ON replaces STATE and DEADLINE without
reading them, on either path: what the channel was doing before makes no difference. -/
def Obligations.NoteOnForgetsThePreviousNote : Prop :=
  ∀ (ch : BitVec 4) (freq : Freq) (level : BitVec 4) (dur : BitVec 16) (s : State) (h : ch.toNat < 9)
    (key : KeyState) (deadline : Time),
    let c : Chan := ⟨ch.toNat, h⟩
    exec (.noteOn ch freq level dur) (s.setChannel c { s.channel c with key := key, deadline := deadline }) =
      exec (.noteOn ch freq level dur) s

/-- 30_encoding.md R75: CH is CMD[43:40]; 0 to 8 name the channel of that number, and any other value makes every
channel command a no-op. -/
def Obligations.InvalidChannelIsIgnored : Prop :=
  (∀ w : Cmd, (chField w).toNat = w.toNat / 2 ^ 40 % 16) ∧
  (∀ (ch : BitVec 4) (h : ch.toNat < 9), channelIndex ch = some ⟨ch.toNat, h⟩) ∧
  ∀ (ch : BitVec 4) (s : State), 9 ≤ ch.toNat →
    (∀ freq level dur, exec (.noteOn ch freq level dur) s = .next s) ∧
    exec (.noteOff ch) s = .next s ∧
    (∀ level, exec (.setVolume ch level) s = .next s) ∧
    (∀ instr sus, exec (.setInstrument ch instr sus) s = .next s)

/-- 42_channel_commands.md R147 with R146: NOTE_OFF ignores an invalid channel and an Idle one. Otherwise it makes one
write, the rhythm byte with the role's bit clear and the other bits from the snapshot, or the control byte with the key
bit clear, by the path at key-off time; then the channel is Idle with deadline 0. -/
def Obligations.NoteOffEffect : Prop :=
  ∀ (ch : BitVec 4) (s : State),
    (9 ≤ ch.toNat → exec (.noteOff ch) s = .next s) ∧
    ∀ h : ch.toNat < 9,
      let c : Chan := ⟨ch.toNat, h⟩
      ((s.channel c).key = .idle → exec (.noteOff ch) s = .next s) ∧
      ((s.channel c).key ≠ .idle →
        ∃ t, exec (.noteOff ch) s = .next t ∧
          ChipWrites
            [if h4 : s.rhyEn = true ∧ 4 ≤ ch.toNat then
               (s.config.aRhy,
                 buildRhythmByte true (roleBit (s.config.roleOfSlot[ch.toNat - 4]'(by omega))) false (keySnap s))
             else
               (BitVec.ofNat 8 (s.config.aCtl.val + ch.toNat),
                 buildInstrumentByte (s.channel c).sus false ((s.channel c).block.setWidth 8)
                   ((s.channel c).fnum.setWidth 16))] s t ∧
          OnlyChannel c { s.channel c with key := .idle, deadline := 0 } s t ∧
          t.rhyEn = s.rhyEn ∧ SameHost s t)

/-- 42_channel_commands.md R149 with R150(a), (c), (e): TICK releases exactly the SoundingTimed channels whose deadline
is at or before NOW. Its writes are those channels' key-off writes in ascending order, each rhythm byte with the earlier
releases cleared; everything else is as before. -/
def Obligations.TickReleasesTheDueNotes : Prop :=
  ∀ s : State, ∃ t, exec .tick s = .next t ∧
    ChipWrites (releaseWrites s) s t ∧
    (∀ ch, t.channel ch =
      if (s.channel ch).key = .soundingTimed ∧ (s.channel ch).deadline.toNat ≤ s.now.toNat
      then { s.channel ch with key := .idle, deadline := 0 } else s.channel ch) ∧
    t.rhyEn = s.rhyEn ∧ SameHost s t

/-- 42_channel_commands.md R150(d): a TICK with no expired channel emits nothing and changes nothing. -/
def Obligations.TickWithNothingDueDoesNothing : Prop :=
  ∀ s : State, (∀ ch, (s.channel ch).key = .soundingTimed → s.now.toNat < (s.channel ch).deadline.toNat) →
    exec .tick s = .next s

/-- 42_channel_commands.md R149: "Idempotent": a second TICK at the same time, or at any other, finds nothing of the
first one's left to release; at the same time it changes nothing at all. -/
def Obligations.TickIsIdempotent : Prop :=
  ∀ s t : State, exec .tick s = .next t →
    exec .tick t = .next t ∧
    ∀ ch, (s.channel ch).key = .soundingTimed → (s.channel ch).deadline.toNat ≤ s.now.toNat →
      ∀ (now : Time) (rest : List HostInput) (u : State), exec .tick (sampleInputs now rest t) = .next u →
        u.channel ch = t.channel ch

/-- 42_channel_commands.md R145, R149, R150(a), (b): after a timed NOTE_ON, a later TICK releases the note exactly when
its time is at or past the deadline modulo 2^32, early release after a wrap included. -/
def Obligations.TimedReleaseRoundTrip : Prop :=
  ∀ (ch : BitVec 4) (freq : Freq) (level : BitVec 4) (dur : BitVec 16) (s t u : State) (h : ch.toNat < 9)
    (now : Time) (rest : List HostInput), 0 < dur.toNat →
    exec (.noteOn ch freq level dur) s = .next t → exec .tick (sampleInputs now rest t) = .next u →
    let c : Chan := ⟨ch.toNat, h⟩
    ((u.channel c).key = .idle ↔ (s.now.toNat + dur.toNat) % 2 ^ 32 ≤ now.toNat) ∧
    ((u.channel c).key = .soundingTimed ↔ now.toNat < (s.now.toNat + dur.toNat) % 2 ^ 32)

/-- 42_channel_commands.md R151: SET_VOLUME, in every channel state and on either path; an invalid channel is
ignored. -/
def Obligations.SetVolumeEffect : Prop :=
  ∀ (ch level : BitVec 4) (s : State), (9 ≤ ch.toNat → exec (.setVolume ch level) s = .next s) ∧ ∀ h : ch.toNat < 9,
    let c : Chan := ⟨ch.toNat, h⟩
    ∃ t, exec (.setVolume ch level) s = .next t ∧
      ChipWrites [(BitVec.ofNat 8 (s.config.aVol.val + ch.toNat), volByte (s.channel c).instr level)] s t ∧
      OnlyChannel c { s.channel c with att := level } s t ∧
      t.rhyEn = s.rhyEn ∧ SameHost s t

/-- 42_channel_commands.md R152: SET_RHYTHM writes RHY_EN and the enable bit with the unmodified snapshot; no channel
changes. -/
def Obligations.SetRhythmEffect : Prop :=
  ∀ (en : Bool) (s : State), ∃ t, exec (.setRhythm en) s = .next t ∧
    ChipWrites [(s.config.aRhy, BitVec.ofNat 8 (en.toNat * 32 + (keySnap s).toNat))] s t ∧
    (∀ ch, t.channel ch = s.channel ch) ∧ t.rhyEn = en ∧ SameHost s t

/-- 42_channel_commands.md R153: SET_INSTRUMENT writes INSTR and SUS, emits nothing and touches nothing else; an
invalid channel is ignored. -/
def Obligations.SetInstrumentEffect : Prop :=
  ∀ (ch instr : BitVec 4) (sus : Bool) (s : State),
    (9 ≤ ch.toNat → exec (.setInstrument ch instr sus) s = .next s) ∧ ∀ h : ch.toNat < 9,
    let c : Chan := ⟨ch.toNat, h⟩
    ∃ t, exec (.setInstrument ch instr sus) s = .next t ∧
      OnlyChannel c { s.channel c with instr := instr, sus := sus } s t ∧
      t.events = s.events ∧ t.lastValid = s.lastValid ∧ t.lastAddr = s.lastAddr ∧
      (∀ a, t.shadow.read a = s.shadow.read a) ∧ t.rhyEn = s.rhyEn ∧ SameHost s t

/-! ### The step -/

/-- 42_channel_commands.md R140: a step on a presented command samples NOW and is exec of what the word decodes to.
That the commands to come stand in State as a list, and the NOW port as a field, is the model's choice (log 1, 2). -/
def Obligations.StepRunsTheDecodedCommand : Prop :=
  ∀ (cmd : Cmd) (now : Time) (rest : List HostInput) (s : State), s.inputs = .command cmd now :: rest →
    (∀ i, decode cmd = .command i → step s = exec i { s with now := now, inputs := rest }) ∧
    (∀ op, decode cmd = .reserved op → step s = .next { s with now := now, inputs := rest })

/-- 42_channel_commands.md R140 with log 12 (the model's choice of how a word is presented): the next step after
withFetchWord runs the table's command on the state as it is. -/
def Obligations.FetchedWordRunsNext : Prop :=
  ∀ (w : Nat) (i : Instr) (s : State), decodeTableWord 48 w = some i → step (s.withFetchWord 48 w) = exec i s

/-- 70_reset_and_hazards.md R220: every register after reset, and no port event. -/
def Obligations.ResetValues : Prop :=
  (∀ ch, State.reset.channel ch =
    { key := .idle, deadline := 0, block := 0, fnum := 0, att := 0, sus := false, instr := 0 }) ∧
  State.reset.rhyEn = false ∧ State.reset.lastValid = false ∧ State.reset.lastAddr = 0 ∧
  (∀ a, State.reset.shadow.read a = none) ∧ State.reset.events = []

/-- 70_reset_and_hazards.md R220, taken as a step of its own (the model's choice, log 5): a hardware reset puts every
register at its reset value and emits nothing, whatever the block was doing. -/
def Obligations.HardwareResetStep : Prop :=
  ∀ (rest : List HostInput) (s : State), s.inputs = .hardwareReset :: rest →
    step s = .next { State.reset with config := s.config, now := s.now, inputs := rest, events := s.events }

/-- 60_exceptions.md R200, R209, 30_encoding.md R80: a step answers a next state, whatever the word, except that it
refuses an overlapped command; it never faults. How an overlapped command is presented is the model's choice (log 4). -/
def Obligations.OnlyOverlapIsRefused : Prop :=
  ∀ s : State,
    (∀ cmd now rest, s.inputs = .overlapped cmd now :: rest → step s = .refused .overlappedCommand) ∧
    ((∀ cmd now rest, s.inputs ≠ .overlapped cmd now :: rest) → ∃ t, step s = .next t)

/-- 10_state.md R20 (log 3, the model's reading): with nothing presented a step leaves everything as it is. -/
def Obligations.NothingPresentedNothingMoves : Prop :=
  ∀ s : State, s.inputs = [] → step s = .next s

/-! ### Rules of the whole machine -/

/-- 70_reset_and_hazards.md R220 with 10_state.md R37: at reset the registers agree, the image is true, and no recorded
address is outside the map. SHADOW's canonical form and the view of the chip are the model's (log 9, 13). -/
def Obligations.ResetMeetsTheInvariants : Prop :=
  RegistersAgree State.reset ∧ ImageTrue State.reset ∧ ShadowInMap State.reset ∧ LatchNotFlo State.reset

/-- 10_state.md R37(b), (d), (e): every step keeps the registers in agreement. The clause of RegistersAgree that SHADOW
is in its canonical form is the model's choice of representation (log 9), not the spec's. -/
def Obligations.EveryStepKeepsTheRegistersInAgreement : Prop :=
  ∀ s t : State, RegistersAgree s → step s = .next t → RegistersAgree t

/-- 20_memory.md R62, 43_write_sequencer.md R185: every step keeps the RegisterImage true of a chip that only this
block writes. The chip is the model's ChipView, which obeys R185's assumption (log 13). -/
def Obligations.EveryStepKeepsTheImageTrue : Prop :=
  ∀ s t : State, ImageTrue s → step s = .next t → ImageTrue t

/-- 20_memory.md R51: every address a step puts on the port is one of the 28, and so is every address SHADOW records. -/
def Obligations.OnlyTheRegisterMapIsWritten : Prop :=
  ∀ s t : State, step s = .next t →
    (∀ a, .addr a ∈ emitted s t → a ∈ chipAddresses s.config) ∧ (ShadowInMap s → ShadowInMap t)

/-- 42_channel_commands.md R143(f): with distinct addresses, no step leaves an FNum-low address latched. -/
def Obligations.FloAddressIsNeverLeftLatched : Prop :=
  ∀ s t : State, AddressesDistinct s.config → LatchNotFlo s → step s = .next t → LatchNotFlo t

/-- 42_channel_commands.md R156: the port events and the writes (data phases) of each command, with distinct addresses,
in states that no command left with an FNum-low address latched. -/
def Obligations.PortEventCounts : Prop :=
  ∀ s : State, AddressesDistinct s.config → LatchNotFlo s →
    (∀ t, exec .beginCmd s = .next t → emitted s t = [.portBegin]) ∧
    (∀ ch freq level dur t, ch.toNat < 9 → exec (.noteOn ch freq level dur) s = .next t →
      (emitted s t).length = 6 ∧ (emitted s t).countP PortEvent.isData = 3) ∧
    (∀ (ch : BitVec 4) (h : ch.toNat < 9) t, (s.channel ⟨ch.toNat, h⟩).key ≠ .idle → exec (.noteOff ch) s = .next t →
      ((emitted s t).length = 1 ∨ (emitted s t).length = 2) ∧ (emitted s t).countP PortEvent.isData = 1) ∧
    (∀ t, exec .tick s = .next t →
      (emitted s t).length ≤ 18 ∧ (emitted s t).countP PortEvent.isData = (allChannels.filter (due s)).length) ∧
    (∀ ch level t, ch.toNat < 9 → exec (.setVolume ch level) s = .next t →
      ((emitted s t).length = 1 ∨ (emitted s t).length = 2) ∧ (emitted s t).countP PortEvent.isData = 1) ∧
    (∀ en t, exec (.setRhythm en) s = .next t →
      ((emitted s t).length = 1 ∨ (emitted s t).length = 2) ∧ (emitted s t).countP PortEvent.isData = 1) ∧
    (∀ ch instr sus t, exec (.setInstrument ch instr sus) s = .next t → emitted s t = [])

/-- 20_memory.md R57, 10_state.md R33: a step only adds events after those already emitted, takes at most one input, and
never changes the parameters. That the inputs stand in State as a list (log 1), that the events pile up through BEGIN
and reset (log 6) and that the parameters stand in State (log 7) are the model's choices. -/
def Obligations.StepsOnlyAddEvents : Prop :=
  ∀ s t : State, step s = .next t →
    t.events = s.events ++ emitted s t ∧ t.config = s.config ∧ t.inputs = s.inputs.tail

/-- 10_state.md R36: which commands may change which register. -/
def Obligations.OnlyTheListedCommandsWriteARegister : Prop :=
  ∀ (i : Instr) (s t : State), exec i s = .next t →
    (t.rhyEn ≠ s.rhyEn → i = .beginCmd ∨ ∃ en, i = .setRhythm en) ∧
    (∀ ch, (t.channel ch).sus ≠ (s.channel ch).sus ∨ (t.channel ch).instr ≠ (s.channel ch).instr →
      i = .beginCmd ∨ ∃ instr sus, i = .setInstrument (BitVec.ofNat 4 ch.val) instr sus) ∧
    (∀ ch, (t.channel ch).att ≠ (s.channel ch).att →
      i = .beginCmd ∨ (∃ level, i = .setVolume (BitVec.ofNat 4 ch.val) level) ∨
        ∃ freq level dur, i = .noteOn (BitVec.ofNat 4 ch.val) freq level dur) ∧
    (∀ ch, (t.channel ch).block ≠ (s.channel ch).block ∨ (t.channel ch).fnum ≠ (s.channel ch).fnum →
      i = .beginCmd ∨ ∃ freq level dur, i = .noteOn (BitVec.ofNat 4 ch.val) freq level dur) ∧
    (∀ ch, (t.channel ch).key ≠ (s.channel ch).key ∨ (t.channel ch).deadline ≠ (s.channel ch).deadline →
      i = .beginCmd ∨ i = .tick ∨ i = .noteOff (BitVec.ofNat 4 ch.val) ∨
        ∃ freq level dur, i = .noteOn (BitVec.ofNat 4 ch.val) freq level dur) ∧
    (t.lastValid ≠ s.lastValid ∨ t.lastAddr ≠ s.lastAddr ∨ t.shadow ≠ s.shadow →
      ∀ ch instr sus, i ≠ .setInstrument ch instr sus)

/-- 42_channel_commands.md R155: a percussion note keyed off after rhythm mode was turned off is keyed off on the other
path, and its key bit stays set in the rhythm register. -/
def Obligations.TogglingRhythmStrandsAKeyBit : Prop :=
  ∀ (ch : BitVec 4) (s t u : State) (h : ch.toNat < 9) (h4 : 4 ≤ ch.toNat), AddressesDistinct s.config →
    (s.channel ⟨ch.toNat, h⟩).key ≠ .idle →
    exec (.setRhythm false) s = .next t → exec (.noteOff ch) t = .next u →
    (u.channel ⟨ch.toNat, h⟩).key = .idle ∧
    ∃ d, u.shadow.read s.config.aRhy.toNat = some d ∧
      d.getLsbD (roleBit (s.config.roleOfSlot[ch.toNat - 4]'(by omega))).toNat = true

/-- 60_exceptions.md R203, 00_scope.md R10 to R12, the open parameters of 92_eei_decisions.md: a block is built exactly
from parameters in their ranges, FSAM = 0 refused, and holds the parameters given; no state has FSAM = 0, so no step
runs under it. R203 has only FSAM = 0 refused; refusing bases and role maps out of range as well is the model's choice
(log 7). -/
def Obligations.OnlyValidParametersBuildABlock : Prop :=
  (∀ s : State, 1 ≤ s.config.fsam) ∧
  ∀ (fsam aRhy aFlo aCtl aVol : Nat) (roles : Vector Role 5),
    (∀ c, Config.build fsam aRhy aFlo aCtl aVol roles = some c →
      c.fsam = fsam ∧ c.aRhy.toNat = aRhy ∧ c.aFlo.val = aFlo ∧ c.aCtl.val = aCtl ∧ c.aVol.val = aVol ∧
      c.roleOfSlot = roles) ∧
    ((∃ c, Config.build fsam aRhy aFlo aCtl aVol roles = some c) ↔
      1 ≤ fsam ∧ aRhy ≤ 255 ∧ aFlo ≤ 247 ∧ aCtl ≤ 247 ∧ aVol ≤ 247 ∧ ∀ r : Role, ∃ k : Fin 5, roles[k] = r)
end

