-- ==== Sys2Proof/Laws/Decode.lean ====
section
/-! SUPPORT. The command word as a number: its fields, the words encode packs, and the care masks as arithmetic. -/

namespace Sys2Proof.Machine

/-! ### Fields as numbers -/

theorem opField_toNat (w : Cmd) : (opField w).toNat = w.toNat / 2 ^ 44 := by
  have := w.isLt
  simp only [opField, BitVec.extractLsb'_toNat, Nat.shiftRight_eq_div_pow]
  omega

theorem chField_toNat (w : Cmd) : (chField w).toNat = w.toNat / 2 ^ 40 % 16 := by
  simp [chField, BitVec.extractLsb'_toNat, Nat.shiftRight_eq_div_pow]

theorem freqField_toNat (w : Cmd) : (freqField w).toNat = w.toNat / 2 ^ 24 % 65536 := by
  simp [freqField, BitVec.extractLsb'_toNat, Nat.shiftRight_eq_div_pow]

theorem levelField_toNat (w : Cmd) : (levelField w).toNat = w.toNat / 2 ^ 20 % 16 := by
  simp [levelField, BitVec.extractLsb'_toNat, Nat.shiftRight_eq_div_pow]

theorem durField_toNat (w : Cmd) : (durField w).toNat = w.toNat / 2 ^ 4 % 65536 := by
  simp [durField, BitVec.extractLsb'_toNat, Nat.shiftRight_eq_div_pow]

theorem flagField_toNat (w : Cmd) : (flagField w).toNat = w.toNat % 2 := by
  rw [flagField, BitVec.getLsbD, Nat.testBit_zero]
  rcases Nat.mod_two_eq_zero_or_one w.toNat with h | h <;> simp [h]

theorem packWord_toNat (op ch : BitVec 4) (freq : Freq) (level : BitVec 4) (dur : BitVec 16) (flag : Bool) :
    (packWord op ch freq level dur flag).toNat =
      wordNumber op.toNat ch.toNat freq.toNat level.toNat dur.toNat flag.toNat := by
  have hf : flag.toNat < 2 ^ 1 := by cases flag <;> decide
  have hb : (BitVec.ofBool flag).toNat = flag.toNat := by cases flag <;> rfl
  simp only [packWord, BitVec.toNat_append, hb]
  rw [← Nat.shiftLeft_add_eq_or_of_lt hf, ← Nat.shiftLeft_add_eq_or_of_lt (by decide),
    ← Nat.shiftLeft_add_eq_or_of_lt dur.isLt, ← Nat.shiftLeft_add_eq_or_of_lt level.isLt,
    ← Nat.shiftLeft_add_eq_or_of_lt freq.isLt, ← Nat.shiftLeft_add_eq_or_of_lt ch.isLt]
  simp only [Nat.shiftLeft_eq, wordNumber, BitVec.toNat_ofNat]
  omega

/-- The decoder by opcode number. -/
theorem decode_eq (w : Cmd) : decode w =
    match w.toNat / 2 ^ 44 with
    | 1 => .command .beginCmd
    | 2 => .command (.noteOn (chField w) (freqField w) (levelField w) (durField w))
    | 3 => .command (.noteOff (chField w))
    | 4 => .command .tick
    | 5 => .command (.setVolume (chField w) (levelField w))
    | 6 => .command (.setRhythm (flagField w))
    | 7 => .command (.setInstrument (chField w) (levelField w) (flagField w))
    | _ => .reserved (opField w) := by
  rw [decode, opField_toNat] <;> rfl

/-! ### Inversion of the decoder, one row at a time -/

theorem decode_beginCmd_iff (w : Cmd) : decode w = .command .beginCmd ↔ w.toNat / 2 ^ 44 = 1 := by
  rw [decode_eq]; split <;> simp_all

theorem decode_noteOn_iff (w : Cmd) (ch : BitVec 4) (freq : Freq) (level : BitVec 4) (dur : BitVec 16) :
    decode w = .command (.noteOn ch freq level dur) ↔
      w.toNat / 2 ^ 44 = 2 ∧ chField w = ch ∧ freqField w = freq ∧ levelField w = level ∧ durField w = dur := by
  rw [decode_eq]; split <;> simp_all

theorem decode_noteOff_iff (w : Cmd) (ch : BitVec 4) :
    decode w = .command (.noteOff ch) ↔ w.toNat / 2 ^ 44 = 3 ∧ chField w = ch := by
  rw [decode_eq]; split <;> simp_all

theorem decode_tick_iff (w : Cmd) : decode w = .command .tick ↔ w.toNat / 2 ^ 44 = 4 := by
  rw [decode_eq]; split <;> simp_all

theorem decode_setVolume_iff (w : Cmd) (ch level : BitVec 4) :
    decode w = .command (.setVolume ch level) ↔ w.toNat / 2 ^ 44 = 5 ∧ chField w = ch ∧ levelField w = level := by
  rw [decode_eq]; split <;> simp_all

theorem decode_setRhythm_iff (w : Cmd) (en : Bool) :
    decode w = .command (.setRhythm en) ↔ w.toNat / 2 ^ 44 = 6 ∧ flagField w = en := by
  rw [decode_eq]; split <;> simp_all

theorem decode_setInstrument_iff (w : Cmd) (ch instr : BitVec 4) (sus : Bool) :
    decode w = .command (.setInstrument ch instr sus) ↔
      w.toNat / 2 ^ 44 = 7 ∧ chField w = ch ∧ levelField w = instr ∧ flagField w = sus := by
  rw [decode_eq]; split <;> simp_all

/-! ### Masks as arithmetic -/

theorem and_field (n lo len : Nat) : n &&& ((2 ^ len - 1) * 2 ^ lo) = n / 2 ^ lo % 2 ^ len * 2 ^ lo := by
  apply Nat.eq_of_testBit_eq
  intro i
  rw [← Nat.shiftRight_eq_div_pow, ← Nat.shiftLeft_eq, ← Nat.shiftLeft_eq]
  simp only [Nat.testBit_and, Nat.testBit_shiftLeft, Nat.testBit_mod_two_pow, Nat.testBit_shiftRight,
    Nat.testBit_two_pow_sub_one]
  by_cases h : lo ≤ i <;> simp [h, Bool.and_comm]

/-- A field mask joined to a lower mask. -/
theorem and_field_or (n lo len m : Nat) (h : m < 2 ^ lo) :
    n &&& ((2 ^ len - 1) * 2 ^ lo + m) = n / 2 ^ lo % 2 ^ len * 2 ^ lo + (n &&& m) := by
  have hm : n &&& m < 2 ^ lo := lt_of_le_of_lt Nat.and_le_right h
  rw [← Nat.shiftLeft_eq, Nat.shiftLeft_add_eq_or_of_lt h, Nat.and_or_distrib_left, Nat.shiftLeft_eq, and_field,
    ← Nat.shiftLeft_eq, ← Nat.shiftLeft_add_eq_or_of_lt hm]

theorem and_mask_op (w : Cmd) : (w &&& 0xF00000000000#48).toNat = w.toNat / 2 ^ 44 % 16 * 2 ^ 44 :=
  and_field w.toNat 44 4

theorem and_mask_noteOn (w : Cmd) : (w &&& 0xFFFFFFFFFFF0#48).toNat = w.toNat / 2 ^ 4 % 2 ^ 44 * 2 ^ 4 :=
  and_field w.toNat 4 44

theorem and_mask_noteOff (w : Cmd) : (w &&& 0xFF0000000000#48).toNat = w.toNat / 2 ^ 40 % 256 * 2 ^ 40 :=
  and_field w.toNat 40 8

theorem and_mask_setVolume (w : Cmd) :
    (w &&& 0xFF0000F00000#48).toNat = w.toNat / 2 ^ 40 % 256 * 2 ^ 40 + w.toNat / 2 ^ 20 % 16 * 2 ^ 20 := by
  have h := and_field_or w.toNat 40 8 0xF00000 (by decide)
  have h' : w.toNat &&& 0xF00000 = w.toNat / 2 ^ 20 % 16 * 2 ^ 20 := and_field w.toNat 20 4
  rw [h'] at h
  exact h

theorem and_mask_setRhythm (w : Cmd) :
    (w &&& 0xF00000000001#48).toNat = w.toNat / 2 ^ 44 % 16 * 2 ^ 44 + w.toNat % 2 := by
  have h := and_field_or w.toNat 44 4 1 (by decide)
  rw [Nat.and_one_is_mod] at h
  exact h

theorem and_mask_setInstrument (w : Cmd) : (w &&& 0xFF0000F00001#48).toNat =
    w.toNat / 2 ^ 40 % 256 * 2 ^ 40 + (w.toNat / 2 ^ 20 % 16 * 2 ^ 20 + w.toNat % 2) := by
  have h := and_field_or w.toNat 40 8 0xF00001 (by decide)
  have h' := and_field_or w.toNat 20 4 1 (by decide)
  rw [Nat.and_one_is_mod] at h'
  exact h.trans (congrArg _ h')

end Sys2Proof.Machine
end

