-- ==== Sys2Proof/Laws/Memory.lean ====
section
/-! SUPPORT. SHADOW: read after write, and the canonical form is kept. -/

namespace Sys2Proof.Machine

@[simp] theorem Memory.read_nil (a : Nat) : Memory.read [] a = none := rfl

theorem Memory.read_cons (c : Host.Cell) (m : Memory) (a : Nat) :
    Memory.read (c :: m) a = if c.1 = a then some c.2 else Memory.read m a := rfl

/-- An address below every listed one reads as none. -/
theorem Memory.read_of_lt_all (m : Memory) (a : Nat) (h : ∀ c ∈ m, a < c.1) : m.read a = none := by
  induction m with
  | nil => rfl
  | cons c m ih =>
      have hc := h c (by simp)
      rw [Memory.read_cons, if_neg (by omega)]
      exact ih fun c' h' => h c' (by simp [h'])

@[simp] theorem Memory.read_write_same (m : Memory) (a : Nat) (v : Byte) : (m.write a v).read a = some v := by
  induction m with
  | nil => simp [Memory.write, Memory.read]
  | cons c m ih =>
      simp only [Memory.write]
      split
      · simp [Memory.read]
      split
      · simp [Memory.read]
      · next h => rw [Memory.read_cons, if_neg (fun e => h e.symm)]; exact ih

theorem Memory.read_write_ne (m : Memory) (a b : Nat) (v : Byte) (h : b ≠ a) : (m.write a v).read b = m.read b := by
  induction m with
  | nil => simp [Memory.write, Memory.read, h.symm]
  | cons c m ih =>
      simp only [Memory.write]
      split
      · simp [Memory.read, h.symm]
      split
      · next e => simp [Memory.read, h.symm, ← e]
      · simp [Memory.read_cons, ih]

theorem Memory.read_write (m : Memory) (a b : Nat) (v : Byte) :
    (m.write a v).read b = if b = a then some v else m.read b := by
  split
  · next h => rw [h, Memory.read_write_same]
  · next h => exact Memory.read_write_ne m a b v h

/-- A write lists only the address written and addresses listed before. -/
theorem Memory.mem_write {m : Memory} {a : Nat} {v : Byte} {c : Host.Cell} (h : c ∈ m.write a v) :
    c = (a, v) ∨ c ∈ m := by
  induction m with
  | nil => simpa [Memory.write] using h
  | cons d m ih =>
      simp only [Memory.write] at h
      split at h
      · simpa using h
      split at h
      · simp at h; tauto
      · rcases List.mem_cons.mp h with rfl | h
        · simp
        · rcases ih h with h | h <;> simp [h]

theorem Memory.wf_nil : Memory.wf [] := by simp [Memory.wf]

/-- Every write inside the register space keeps the canonical form. -/
theorem Memory.wf_write {m : Memory} (hm : m.wf) {a : Nat} (ha : a < 256) (v : Byte) : (m.write a v).wf := by
  refine ⟨?_, fun c hc => ?_⟩
  · obtain ⟨hp, -⟩ := hm
    induction m with
    | nil => simp [Memory.write]
    | cons d m ih =>
        obtain ⟨hd, hp'⟩ := List.pairwise_cons.mp hp
        simp only [Memory.write]
        split
        · next h =>
            refine List.pairwise_cons.mpr ⟨fun c hc => ?_, hp⟩
            rcases List.mem_cons.mp hc with rfl | hc
            · exact h
            · exact lt_trans h (hd c hc)
        split
        · next h => exact List.pairwise_cons.mpr ⟨fun c hc => by simpa [h] using hd c hc, hp'⟩
        · next h₁ h₂ =>
            refine List.pairwise_cons.mpr ⟨fun c hc => ?_, ih hp'⟩
            rcases Memory.mem_write hc with rfl | hc
            · show d.1 < a; omega
            · exact hd c hc
  · rcases Memory.mem_write hc with rfl | hc
    · exact ha
    · exact hm.2 c hc

/-- In canonical form, memories that read alike are equal. -/
theorem Memory.ext_of_read {m m' : Memory} (hm : m.wf) (hm' : m'.wf) (h : ∀ a, m.read a = m'.read a) : m = m' := by
  obtain ⟨hp, -⟩ := hm
  obtain ⟨hp', -⟩ := hm'
  induction m generalizing m' with
  | nil =>
      cases m' with
      | nil => rfl
      | cons c m' => have := h c.1; simp [Memory.read_cons] at this
  | cons c m ih =>
      cases m' with
      | nil => have := h c.1; simp [Memory.read_cons] at this
      | cons c' m' =>
          obtain ⟨hc, ht⟩ := List.pairwise_cons.mp hp
          obtain ⟨hc', ht'⟩ := List.pairwise_cons.mp hp'
          have h₁ := h c.1
          have h₂ := h c'.1
          have hfst : c.1 = c'.1 := by
            rcases lt_trichotomy c.1 c'.1 with hlt | heq | hgt
            · rw [Memory.read_cons, if_pos rfl, Memory.read_cons, if_neg (by omega),
                Memory.read_of_lt_all m' c.1 fun d hd => lt_trans hlt (hc' d hd)] at h₁
              exact absurd h₁ (by simp)
            · exact heq
            · rw [Memory.read_cons, if_neg (by omega), Memory.read_cons, if_pos rfl,
                Memory.read_of_lt_all m c'.1 fun d hd => lt_trans hgt (hc d hd)] at h₂
              exact absurd h₂ (by simp)
          have hsnd : c.2 = c'.2 := by
            simpa [Memory.read_cons, hfst] using h₁
          have hcc : c = c' := Prod.ext hfst hsnd
          subst hcc
          refine congrArg (c :: ·) (ih (fun a => ?_) ht ht')
          by_cases ha : c.1 = a
          · subst ha
            rw [Memory.read_of_lt_all m _ hc, Memory.read_of_lt_all m' _ hc']
          · simpa [Memory.read_cons, ha] using h a

end Sys2Proof.Machine
end

