-- ==== Sys2Proof/Laws/State.lean ====
section
/-! SUPPORT. What each operation of Machine/Ops.lean does to each field of State. -/

namespace Sys2Proof.Machine

/-! ### setChannel: only the channel register file -/

@[simp] theorem setChannel_config (s : State) (ch : Chan) (c : Channel) : (s.setChannel ch c).config = s.config := rfl
@[simp] theorem setChannel_rhyEn (s : State) (ch : Chan) (c : Channel) : (s.setChannel ch c).rhyEn = s.rhyEn := rfl
@[simp] theorem setChannel_lastValid (s : State) (ch : Chan) (c : Channel) : (s.setChannel ch c).lastValid = s.lastValid := rfl
@[simp] theorem setChannel_lastAddr (s : State) (ch : Chan) (c : Channel) : (s.setChannel ch c).lastAddr = s.lastAddr := rfl
@[simp] theorem setChannel_shadow (s : State) (ch : Chan) (c : Channel) : (s.setChannel ch c).shadow = s.shadow := rfl
@[simp] theorem setChannel_now (s : State) (ch : Chan) (c : Channel) : (s.setChannel ch c).now = s.now := rfl
@[simp] theorem setChannel_inputs (s : State) (ch : Chan) (c : Channel) : (s.setChannel ch c).inputs = s.inputs := rfl
@[simp] theorem setChannel_events (s : State) (ch : Chan) (c : Channel) : (s.setChannel ch c).events = s.events := rfl

@[simp] theorem channel_setChannel_same (s : State) (ch : Chan) (c : Channel) : (s.setChannel ch c).channel ch = c := by
  simp [State.channel, State.setChannel]

theorem channel_setChannel_ne (s : State) (ch ch' : Chan) (c : Channel) (h : ch' ≠ ch) :
    (s.setChannel ch c).channel ch' = s.channel ch' := by
  have h' : ch.val ≠ ch'.val := fun e => h (Fin.ext e.symm)
  simp [State.channel, State.setChannel, Vector.getElem_set_ne, h']

theorem channel_setChannel (s : State) (ch ch' : Chan) (c : Channel) :
    (s.setChannel ch c).channel ch' = if ch' = ch then c else s.channel ch' := by
  split
  · next h => rw [h, channel_setChannel_same]
  · next h => exact channel_setChannel_ne s ch ch' c h

@[simp] theorem setChannel_setChannel (s : State) (ch : Chan) (c c' : Channel) :
    (s.setChannel ch c).setChannel ch c' = s.setChannel ch c' := by
  simp [State.setChannel]

/-! ### emit: only the event list -/

@[simp] theorem emit_config (e : PortEvent) (s : State) : (emit e s).config = s.config := rfl
@[simp] theorem emit_channels (e : PortEvent) (s : State) : (emit e s).channels = s.channels := rfl
@[simp] theorem emit_rhyEn (e : PortEvent) (s : State) : (emit e s).rhyEn = s.rhyEn := rfl
@[simp] theorem emit_lastValid (e : PortEvent) (s : State) : (emit e s).lastValid = s.lastValid := rfl
@[simp] theorem emit_lastAddr (e : PortEvent) (s : State) : (emit e s).lastAddr = s.lastAddr := rfl
@[simp] theorem emit_shadow (e : PortEvent) (s : State) : (emit e s).shadow = s.shadow := rfl
@[simp] theorem emit_now (e : PortEvent) (s : State) : (emit e s).now = s.now := rfl
@[simp] theorem emit_inputs (e : PortEvent) (s : State) : (emit e s).inputs = s.inputs := rfl
@[simp] theorem emit_events (e : PortEvent) (s : State) : (emit e s).events = s.events ++ [e] := rfl
@[simp] theorem emit_channel (e : PortEvent) (s : State) (ch : Chan) : (emit e s).channel ch = s.channel ch := rfl

/-! ### latchAddress: the event list and the address cache -/

@[simp] theorem latchAddress_config (a : Addr) (s : State) : (latchAddress a s).config = s.config := by unfold latchAddress; split <;> rfl
@[simp] theorem latchAddress_channels (a : Addr) (s : State) : (latchAddress a s).channels = s.channels := by unfold latchAddress; split <;> rfl
@[simp] theorem latchAddress_rhyEn (a : Addr) (s : State) : (latchAddress a s).rhyEn = s.rhyEn := by unfold latchAddress; split <;> rfl
@[simp] theorem latchAddress_shadow (a : Addr) (s : State) : (latchAddress a s).shadow = s.shadow := by unfold latchAddress; split <;> rfl
@[simp] theorem latchAddress_now (a : Addr) (s : State) : (latchAddress a s).now = s.now := by unfold latchAddress; split <;> rfl
@[simp] theorem latchAddress_inputs (a : Addr) (s : State) : (latchAddress a s).inputs = s.inputs := by unfold latchAddress; split <;> rfl
@[simp] theorem latchAddress_channel (a : Addr) (s : State) (ch : Chan) : (latchAddress a s).channel ch = s.channel ch := by
  simp [State.channel]
@[simp] theorem latchAddress_lastValid (a : Addr) (s : State) : (latchAddress a s).lastValid = true := by
  unfold latchAddress; split
  · next h => exact h.1
  · rfl
@[simp] theorem latchAddress_lastAddr (a : Addr) (s : State) : (latchAddress a s).lastAddr = a := by
  unfold latchAddress; split
  · next h => exact h.2
  · rfl

/-! ### chipWrite: the event list, the address cache and SHADOW -/

@[simp] theorem chipWrite_config (a : Addr) (d : Byte) (s : State) : (chipWrite a d s).config = s.config := by simp [chipWrite, sendData]
@[simp] theorem chipWrite_channels (a : Addr) (d : Byte) (s : State) : (chipWrite a d s).channels = s.channels := by simp [chipWrite, sendData]
@[simp] theorem chipWrite_rhyEn (a : Addr) (d : Byte) (s : State) : (chipWrite a d s).rhyEn = s.rhyEn := by simp [chipWrite, sendData]
@[simp] theorem chipWrite_now (a : Addr) (d : Byte) (s : State) : (chipWrite a d s).now = s.now := by simp [chipWrite, sendData]
@[simp] theorem chipWrite_inputs (a : Addr) (d : Byte) (s : State) : (chipWrite a d s).inputs = s.inputs := by simp [chipWrite, sendData]
@[simp] theorem chipWrite_channel (a : Addr) (d : Byte) (s : State) (ch : Chan) : (chipWrite a d s).channel ch = s.channel ch := by
  simp [State.channel]
@[simp] theorem chipWrite_lastValid (a : Addr) (d : Byte) (s : State) : (chipWrite a d s).lastValid = true := by simp [chipWrite, sendData]
@[simp] theorem chipWrite_lastAddr (a : Addr) (d : Byte) (s : State) : (chipWrite a d s).lastAddr = a := by simp [chipWrite, sendData]
@[simp] theorem chipWrite_shadow (a : Addr) (d : Byte) (s : State) : (chipWrite a d s).shadow = s.shadow.write a.toNat d := by simp [chipWrite, sendData]

/-! ### resetRegisters: the registers, not the parameters or the ports -/

@[simp] theorem resetRegisters_config (s : State) : (resetRegisters s).config = s.config := rfl
@[simp] theorem resetRegisters_channels (s : State) : (resetRegisters s).channels = Vector.replicate 9 Channel.reset := rfl
@[simp] theorem resetRegisters_rhyEn (s : State) : (resetRegisters s).rhyEn = false := rfl
@[simp] theorem resetRegisters_lastValid (s : State) : (resetRegisters s).lastValid = false := rfl
@[simp] theorem resetRegisters_lastAddr (s : State) : (resetRegisters s).lastAddr = 0 := rfl
@[simp] theorem resetRegisters_shadow (s : State) : (resetRegisters s).shadow = [] := rfl
@[simp] theorem resetRegisters_now (s : State) : (resetRegisters s).now = s.now := rfl
@[simp] theorem resetRegisters_inputs (s : State) : (resetRegisters s).inputs = s.inputs := rfl
@[simp] theorem resetRegisters_events (s : State) : (resetRegisters s).events = s.events := rfl
@[simp] theorem resetRegisters_channel (s : State) (ch : Chan) : (resetRegisters s).channel ch = Channel.reset := by
  simp [State.channel, resetRegisters]

/-! ### sampleInputs: the input ports -/

@[simp] theorem sampleInputs_config (now : Time) (rest : List HostInput) (s : State) : (sampleInputs now rest s).config = s.config := rfl
@[simp] theorem sampleInputs_channels (now : Time) (rest : List HostInput) (s : State) : (sampleInputs now rest s).channels = s.channels := rfl
@[simp] theorem sampleInputs_rhyEn (now : Time) (rest : List HostInput) (s : State) : (sampleInputs now rest s).rhyEn = s.rhyEn := rfl
@[simp] theorem sampleInputs_lastValid (now : Time) (rest : List HostInput) (s : State) : (sampleInputs now rest s).lastValid = s.lastValid := rfl
@[simp] theorem sampleInputs_lastAddr (now : Time) (rest : List HostInput) (s : State) : (sampleInputs now rest s).lastAddr = s.lastAddr := rfl
@[simp] theorem sampleInputs_shadow (now : Time) (rest : List HostInput) (s : State) : (sampleInputs now rest s).shadow = s.shadow := rfl
@[simp] theorem sampleInputs_now (now : Time) (rest : List HostInput) (s : State) : (sampleInputs now rest s).now = now := rfl
@[simp] theorem sampleInputs_inputs (now : Time) (rest : List HostInput) (s : State) : (sampleInputs now rest s).inputs = rest := rfl
@[simp] theorem sampleInputs_events (now : Time) (rest : List HostInput) (s : State) : (sampleInputs now rest s).events = s.events := rfl
@[simp] theorem sampleInputs_channel (now : Time) (rest : List HostInput) (s : State) (ch : Chan) :
    (sampleInputs now rest s).channel ch = s.channel ch := rfl

/-! ### Two states with the same fields -/

theorem State.ext_of_fields {s t : State} (hc : t.config = s.config) (hch : ∀ ch, t.channel ch = s.channel ch)
    (hr : t.rhyEn = s.rhyEn) (hv : t.lastValid = s.lastValid) (ha : t.lastAddr = s.lastAddr)
    (hs : t.shadow = s.shadow) (hn : t.now = s.now) (hi : t.inputs = s.inputs) (he : t.events = s.events) : t = s := by
  have hch' : t.channels = s.channels := Vector.ext fun i hi => hch ⟨i, hi⟩
  cases s; cases t; simp_all

end Sys2Proof.Machine
end

