-- ==== Sys2Proof/Laws/Ops.lean ====
section
/-! SUPPORT. What the shared operations do at the port: single writes, their composition, and the operand forms. -/

namespace Sys2Proof.Machine

/-! ### Lists of writes -/

theorem latched_of_valid {s : State} (h : s.lastValid = true) : latched s = some s.lastAddr := by simp [latched, h]

theorem writeEvents_append (l : Option Addr) (ws ws' : List (Addr × Byte)) :
    writeEvents l (ws ++ ws') = writeEvents l ws ++ writeEvents ((ws.getLast?.map Prod.fst).or l) ws' := by
  induction ws generalizing l with
  | nil => simp [writeEvents]
  | cons w ws ih =>
      simp only [List.cons_append, writeEvents, ih, List.append_assoc]
      cases ws with
      | nil => simp
      | cons w' ws => simp [List.getLast?_cons]

theorem lastWrite_append (ws ws' : List (Addr × Byte)) (a : Nat) :
    lastWrite (ws ++ ws') a = (lastWrite ws' a).or (lastWrite ws a) := by
  induction ws with
  | nil => simp [lastWrite]
  | cons w ws ih => simp [lastWrite, ih, Option.or_assoc]

/-- What a list of writes holds at an address comes from one of its entries. -/
theorem mem_of_lastWrite {ws : List (Addr × Byte)} {a : Nat} {d : Byte} (h : lastWrite ws a = some d) :
    ∃ w ∈ ws, w.1.toNat = a ∧ w.2 = d := by
  induction ws with
  | nil => simp [lastWrite] at h
  | cons w ws ih =>
      rcases Option.or_eq_some_iff.mp h with h | ⟨-, h⟩
      · obtain ⟨w', hm, hw'⟩ := ih h
        exact ⟨w', by simp [hm], hw'⟩
      · refine ⟨w, by simp, ?_⟩
        split at h
        · next e => exact ⟨e, by simpa using h⟩
        · simp at h

/-! ### ChipWrite and its compositions -/

theorem latchAddress_events (a : Addr) (s : State) :
    (latchAddress a s).events = s.events ++ if latched s = some a then [] else [.addr a] := by
  unfold latchAddress latched
  by_cases h : s.lastValid = true
  · by_cases h' : s.lastAddr = a <;> simp [h, h']
  · simp [h]

theorem chipWrite_events (a : Addr) (d : Byte) (s : State) :
    (chipWrite a d s).events = s.events ++ writeEvents (latched s) [(a, d)] := by
  simp only [chipWrite, sendData, emit_events, latchAddress_events, writeEvents]
  split <;> simp

theorem chipWrite_writes (a : Addr) (d : Byte) (s : State) : ChipWrites [(a, d)] s (chipWrite a d s) where
  events := chipWrite_events a d s
  lastAddr := by simp
  lastValid := by simp
  shadow b := by
    rw [chipWrite_shadow, Memory.read_write]
    by_cases h : b = a.toNat
    · simp [lastWrite, h]
    · have h' : ¬ a.toNat = b := fun e => h e.symm
      simp [lastWrite, h, h']

/-- A change that leaves the port alone writes nothing. -/
theorem ChipWrites.none_of_port {s t : State} (he : t.events = s.events) (ha : t.lastAddr = s.lastAddr)
    (hv : t.lastValid = s.lastValid) (hs : t.shadow = s.shadow) : ChipWrites [] s t where
  events := by simp [he, writeEvents]
  lastAddr := by simp [ha]
  lastValid := by simp [hv]
  shadow a := by simp [hs, lastWrite]

theorem ChipWrites.refl (s : State) : ChipWrites [] s s := .none_of_port rfl rfl rfl rfl

theorem ChipWrites.latched {ws : List (Addr × Byte)} {s t : State} (h : ChipWrites ws s t) :
    latched t = (ws.getLast?.map Prod.fst).or (Machine.latched s) := by
  have ha := h.lastAddr
  have hv := h.lastValid
  rcases List.eq_nil_or_concat ws with rfl | ⟨ws', w, rfl⟩
  · simp only [List.getLast?_nil, Option.map_none, Option.getD_none] at ha
    simp [Machine.latched, ha, hv]
  · simp [Machine.latched, ha, hv]

theorem ChipWrites.trans {ws ws' : List (Addr × Byte)} {s t u : State} (h : ChipWrites ws s t)
    (h' : ChipWrites ws' t u) : ChipWrites (ws ++ ws') s u where
  events := by rw [h'.events, h.events, writeEvents_append, h.latched, List.append_assoc]
  lastAddr := by
    rw [h'.lastAddr, h.lastAddr]
    rcases List.eq_nil_or_concat ws' with rfl | ⟨ws'', w, rfl⟩
    · simp
    · simp [← List.append_assoc]
  lastValid := by rw [h'.lastValid, h.lastValid]; cases ws <;> simp
  shadow a := by rw [h'.shadow, h.shadow, lastWrite_append, Option.or_assoc]

/-- A row of ChipWrites, run one after the other. -/
theorem chipWrite_foldl_writes (ws : List (Addr × Byte)) (s : State) :
    ChipWrites ws s (ws.foldl (fun t w => chipWrite w.1 w.2 t) s) := by
  induction ws generalizing s with
  | nil => exact .refl s
  | cons w ws ih => exact (chipWrite_writes w.1 w.2 s).trans (ih _)

/-! ### Operand forms -/

theorem channelIndex_of_lt {ch : BitVec 4} (h : ch.toNat < 9) : channelIndex ch = some ⟨ch.toNat, h⟩ := by
  simp [channelIndex, h]

theorem channelIndex_of_ge {ch : BitVec 4} (h : 9 ≤ ch.toNat) : channelIndex ch = none := by
  simp [channelIndex]; omega

theorem channelIndex_eq_some {ch : BitVec 4} {c : Chan} (h : channelIndex ch = some c) : ch.toNat = c.val := by
  unfold channelIndex at h
  split at h
  · simp only [Option.some.injEq] at h; simp [← h]
  · simp at h

theorem mem_allChannels (ch : Chan) : ch ∈ allChannels := by revert ch; decide

theorem allChannels_sorted : allChannels.Pairwise (· < ·) := by decide

theorem percRole_melodic {s : State} {ch : Chan} (h : s.rhyEn = false ∨ ch.val < 4) : percRole s ch = none := by
  rcases h with h | h
  · simp [percRole, isPerc, h]
  · have : ¬ 4 ≤ ch.val := by omega
    simp [percRole, isPerc, this]

theorem percRole_percussion {s : State} {ch : Chan} (h : s.rhyEn = true) (h4 : 4 ≤ ch.val) :
    percRole s ch = some (s.config.roleOfSlot[ch.val - 4]'(by omega)) := by
  simp [percRole, isPerc, h, h4, roleOfChannel]

theorem floAddr_mem (c : Config) (ch : Chan) : floAddr c ch ∈ chipAddresses c := by
  simp only [chipAddresses, List.mem_cons, List.mem_append, List.mem_map]
  exact .inr (.inl (.inl ⟨ch, mem_allChannels ch, rfl⟩))

theorem ctlAddr_mem (c : Config) (ch : Chan) : ctlAddr c ch ∈ chipAddresses c := by
  simp only [chipAddresses, List.mem_cons, List.mem_append, List.mem_map]
  exact .inr (.inl (.inr ⟨ch, mem_allChannels ch, rfl⟩))

theorem volAddr_mem (c : Config) (ch : Chan) : volAddr c ch ∈ chipAddresses c := by
  simp only [chipAddresses, List.mem_cons, List.mem_append, List.mem_map]
  exact .inr (.inr ⟨ch, mem_allChannels ch, rfl⟩)

theorem rhyAddr_mem (c : Config) : c.aRhy ∈ chipAddresses c := by simp [chipAddresses]

end Sys2Proof.Machine
end

