-- ==== Sys2Proof/Laws/Effects.lean ====
section
/-! SUPPORT. What each meaning can do, said once: the shape of the key and volume writes, one key-off, TICK's fold, and
the inversion of exec and step. -/

namespace Sys2Proof.Machine

/-! ### The shared parts of the note commands -/

theorem writeKey_melodic {ch : Chan} {s : State} (keyOn : Bool) (h : s.rhyEn = false ∨ ch.val < 4) :
    writeKey ch keyOn s = chipWrite (BitVec.ofNat 8 (s.config.aCtl.val + ch.val))
      (buildInstrumentByte (s.channel ch).sus keyOn ((s.channel ch).block.setWidth 8) ((s.channel ch).fnum.setWidth 16)) s := by
  simp [writeKey, percRole_melodic h, ctlAddr, slotAddr]

theorem writeKey_percussion {ch : Chan} {s : State} (keyOn : Bool) (h : s.rhyEn = true) (h4 : 4 ≤ ch.val) :
    writeKey ch keyOn s = chipWrite s.config.aRhy
      (buildRhythmByte true (roleBit (s.config.roleOfSlot[ch.val - 4]'(by omega))) keyOn (keySnap s)) s := by
  simp [writeKey, percRole_percussion h h4, h]

/-- Whatever the path, the key byte is one chip write, to the rhythm register or to the channel's control register. -/
theorem writeKey_is_chipWrite (ch : Chan) (keyOn : Bool) (s : State) :
    ∃ a d, writeKey ch keyOn s = chipWrite a d s ∧ (a = s.config.aRhy ∨ a = ctlAddr s.config ch) := by
  unfold writeKey
  split
  · exact ⟨_, _, rfl, .inl rfl⟩
  · exact ⟨_, _, rfl, .inr rfl⟩

/-- KEYSNAP depends on the channels' key states and on ROLE_OF_SLOT alone. -/
theorem keySnap_congr {s t : State} (hc : t.config = s.config)
    (hk : ∀ ch, (t.channel ch).keyed = (s.channel ch).keyed) : keySnap t = keySnap s := by
  have : keySnapBit t = keySnapBit s := by funext ch; simp [keySnapBit, hc, hk]
  simp [keySnap, this]

theorem percRole_congr {s t : State} (hc : t.config = s.config) (hr : t.rhyEn = s.rhyEn) (ch : Chan) :
    percRole t ch = percRole s ch := by simp [percRole, isPerc, hc, hr]

theorem expired_eq_due (s : State) (ch : Chan) : expired s ch = due s ch := by
  rw [Bool.eq_iff_iff]
  simp [expired, due, BitVec.ule]

/-! ### Frames of the parts: what they keep -/

/-- The parameters, the ports and RHY_EN as before; the writes stay inside the register map and SHADOW keeps its form. -/
structure Contained (s t : State) : Prop where
  host : SameHost s t
  port : ∃ ws, ChipWrites ws s t ∧ ∀ w ∈ ws, w.1 ∈ chipAddresses s.config
  shadow_wf : s.shadow.wf → t.shadow.wf

theorem Contained.refl (s : State) : Contained s s where
  host := ⟨rfl, rfl, rfl⟩
  port := ⟨[], .refl s, by simp⟩
  shadow_wf := id

theorem Contained.trans {s t u : State} (h : Contained s t) (h' : Contained t u) : Contained s u where
  host := ⟨h'.host.config.trans h.host.config, h'.host.now.trans h.host.now, h'.host.inputs.trans h.host.inputs⟩
  port := by
    obtain ⟨ws, hw, hm⟩ := h.port
    obtain ⟨ws', hw', hm'⟩ := h'.port
    refine ⟨ws ++ ws', hw.trans hw', fun w hmem => ?_⟩
    rcases List.mem_append.mp hmem with hmem | hmem
    · exact hm w hmem
    · exact h.host.config ▸ hm' w hmem
  shadow_wf := h'.shadow_wf ∘ h.shadow_wf

theorem contained_setChannel (s : State) (ch : Chan) (c : Channel) : Contained s (s.setChannel ch c) where
  host := ⟨rfl, rfl, rfl⟩
  port := ⟨[], .none_of_port rfl rfl rfl rfl, by simp⟩
  shadow_wf := id

theorem contained_rhyEn (s : State) (en : Bool) : Contained s { s with rhyEn := en } where
  host := ⟨rfl, rfl, rfl⟩
  port := ⟨[], .none_of_port rfl rfl rfl rfl, by simp⟩
  shadow_wf := id

theorem contained_chipWrite {s : State} {a : Addr} (d : Byte) (h : a ∈ chipAddresses s.config) :
    Contained s (chipWrite a d s) where
  host := ⟨by simp, by simp, by simp⟩
  port := ⟨[(a, d)], chipWrite_writes a d s, by simpa using h⟩
  shadow_wf hs := by rw [chipWrite_shadow]; exact Memory.wf_write hs a.isLt d

theorem contained_writeKey (ch : Chan) (keyOn : Bool) (s : State) : Contained s (writeKey ch keyOn s) := by
  obtain ⟨a, d, hw, ha⟩ := writeKey_is_chipWrite ch keyOn s
  rw [hw]
  refine contained_chipWrite d ?_
  rcases ha with rfl | rfl
  · exact rhyAddr_mem _
  · exact ctlAddr_mem _ _

theorem contained_writeVolume (ch : Chan) (s : State) : Contained s (writeVolume ch s) :=
  contained_chipWrite _ (volAddr_mem _ _)

@[simp] theorem writeKey_channel (ch ch' : Chan) (keyOn : Bool) (s : State) :
    (writeKey ch keyOn s).channel ch' = s.channel ch' := by
  obtain ⟨a, d, hw, -⟩ := writeKey_is_chipWrite ch keyOn s
  rw [hw, chipWrite_channel]

@[simp] theorem writeKey_rhyEn (ch : Chan) (keyOn : Bool) (s : State) : (writeKey ch keyOn s).rhyEn = s.rhyEn := by
  obtain ⟨a, d, hw, -⟩ := writeKey_is_chipWrite ch keyOn s
  rw [hw, chipWrite_rhyEn]

@[simp] theorem writeKey_config (ch : Chan) (keyOn : Bool) (s : State) : (writeKey ch keyOn s).config = s.config :=
  (contained_writeKey ch keyOn s).host.config

@[simp] theorem writeKey_now (ch : Chan) (keyOn : Bool) (s : State) : (writeKey ch keyOn s).now = s.now :=
  (contained_writeKey ch keyOn s).host.now

@[simp] theorem writeVolume_channel (ch ch' : Chan) (s : State) : (writeVolume ch s).channel ch' = s.channel ch' := by
  simp [writeVolume]

@[simp] theorem writeVolume_rhyEn (ch : Chan) (s : State) : (writeVolume ch s).rhyEn = s.rhyEn := by simp [writeVolume]

@[simp] theorem writeVolume_now (ch : Chan) (s : State) : (writeVolume ch s).now = s.now := by simp [writeVolume]

theorem contained_loadNote (ch : Chan) (freq : Freq) (level : BitVec 4) (s : State) :
    Contained s (loadNote ch freq level s) := contained_setChannel _ _ _

theorem contained_startNote (ch : Chan) (dur : BitVec 16) (s : State) : Contained s (startNote ch dur s) := by
  unfold startNote; split <;> exact contained_setChannel _ _ _

theorem contained_noteOn (ch : Chan) (freq : Freq) (level : BitVec 4) (dur : BitVec 16) (s : State) :
    Contained s (noteOn ch freq level dur s) :=
  (contained_loadNote ch freq level s).trans <|
    (contained_chipWrite _ (floAddr_mem _ _)).trans <|
      (contained_writeKey ch true _).trans <| (contained_writeVolume ch _).trans (contained_startNote ch dur _)

/-! ### KEY_OFF and TICK -/

theorem contained_keyOff (ch : Chan) (s : State) : Contained s (keyOff ch s) :=
  (contained_writeKey ch false s).trans (contained_setChannel _ _ _)

@[simp] theorem keyOff_rhyEn (ch : Chan) (s : State) : (keyOff ch s).rhyEn = s.rhyEn := by simp [keyOff, stopNote]

theorem keyOff_channel (ch ch' : Chan) (s : State) :
    (keyOff ch s).channel ch' = if ch' = ch then (s.channel ch).released else s.channel ch' := by
  simp [keyOff, stopNote, channel_setChannel, Channel.released]

theorem contained_tickChannel (s : State) (ch : Chan) : Contained s (tickChannel s ch) := by
  unfold tickChannel
  split
  · exact contained_keyOff ch s
  · exact .refl s

theorem contained_tick (l : List Chan) (s : State) : Contained s (l.foldl tickChannel s) := by
  induction l generalizing s with
  | nil => exact .refl s
  | cons ch l ih => exact (contained_tickChannel s ch).trans (ih _)

@[simp] theorem tickChannel_rhyEn (s : State) (ch : Chan) : (tickChannel s ch).rhyEn = s.rhyEn := by
  unfold tickChannel; split <;> simp

theorem tickChannel_channel (s : State) (ch ch' : Chan) :
    (tickChannel s ch).channel ch' = if ch' = ch ∧ due s ch then (s.channel ch).released else s.channel ch' := by
  unfold tickChannel
  rw [expired_eq_due]
  by_cases hd : due s ch = true
  · simp [hd, keyOff_channel]
  · simp [hd]

/-- Whether a channel is due is read from that channel and NOW. -/
theorem due_congr {s t : State} {ch : Chan} (hn : t.now = s.now) (hc : t.channel ch = s.channel ch) :
    due t ch = due s ch := by simp [due, hn, hc]

theorem tick_rhyEn (l : List Chan) (s : State) : (l.foldl tickChannel s).rhyEn = s.rhyEn := by
  induction l generalizing s with
  | nil => rfl
  | cons ch l ih => simp [ih]

/-! ### Inversion -/

/-- What a command can do: BEGIN resets the registers; every other command is contained. -/
theorem exec_inv {i : Instr} {s t : State} (h : exec i s = .next t) :
    (i = .beginCmd ∧ t = emit .portBegin (resetRegisters s)) ∨ Contained s t := by
  cases i with
  | beginCmd => exact .inl ⟨rfl, by simpa [exec, execBegin] using h.symm⟩
  | noteOn ch freq level dur =>
      right
      simp only [exec, execNoteOn] at h
      split at h <;> obtain rfl := Host.Outcome.next.inj h
      · exact contained_noteOn _ _ _ _ _
      · exact .refl s
  | noteOff ch =>
      right
      simp only [exec, execNoteOff] at h
      split at h
      · split at h <;> obtain rfl := Host.Outcome.next.inj h
        · exact .refl s
        · exact contained_keyOff _ _
      · obtain rfl := Host.Outcome.next.inj h
        exact .refl s
  | tick =>
      right
      obtain rfl := Host.Outcome.next.inj h
      exact contained_tick _ _
  | setVolume ch level =>
      right
      simp only [exec, execSetVolume] at h
      split at h <;> obtain rfl := Host.Outcome.next.inj h
      · exact (contained_setChannel _ _ _).trans (contained_writeVolume _ _)
      · exact .refl s
  | setRhythm en =>
      right
      obtain rfl := Host.Outcome.next.inj h
      exact (contained_rhyEn s en).trans (contained_chipWrite _ (rhyAddr_mem _))
  | setInstrument ch instr sus =>
      right
      simp only [exec, execSetInstrument] at h
      split at h <;> obtain rfl := Host.Outcome.next.inj h
      · exact contained_setChannel _ _ _
      · exact .refl s

/-- What a step can do: wait, run a command, ignore a reserved word, or take a reset. -/
theorem step_inv {s t : State} (h : step s = .next t) :
    (s.inputs = [] ∧ t = s) ∨
    (∃ cmd now rest, s.inputs = .command cmd now :: rest ∧
      ((∃ i, decode cmd = .command i ∧ exec i (sampleInputs now rest s) = .next t) ∨
       (∃ op, decode cmd = .reserved op ∧ t = sampleInputs now rest s))) ∨
    (∃ rest, s.inputs = .hardwareReset :: rest ∧ t = resetRegisters { s with inputs := rest }) := by
  unfold step at h
  split at h
  · next hi => exact .inl ⟨hi, (Host.Outcome.next.inj h).symm⟩
  · next cmd now rest hi =>
      refine .inr (.inl ⟨cmd, now, rest, hi, ?_⟩)
      unfold runCommand at h
      split at h
      · next i hd => exact .inl ⟨i, hd, h⟩
      · next op hd => exact .inr ⟨op, hd, (Host.Outcome.next.inj h).symm⟩
  · exact absurd h (by simp [refuseOverlap])
  · next rest hi => exact .inr (.inr ⟨rest, hi, (Host.Outcome.next.inj h).symm⟩)

end Sys2Proof.Machine
end

