-- ==== Sys2Proof/Laws/Notes.lean ====
section
/-! SUPPORT. The note commands in terms of their key write, whichever path it takes. -/

namespace Sys2Proof.Machine

/-- The FNum of a note as one exact quotient cut to 9 bits (40_frequency_encoder.md R103, R106). -/
theorem fnumOf_eq (fsam : Nat) (freq : Freq) :
    fnumOf fsam freq = BitVec.ofNat 9 (freq.toNat * 2 ^ (19 - (calcBlock freq).toNat) / fsam) := by
  apply BitVec.eq_of_toNat_eq
  simp [fnumOf, calcFNum]

/-- The deadline is the sum modulo 2^32 (42_channel_commands.md R145). -/
theorem deadline_eq (now : Time) (dur : BitVec 16) :
    now + dur.setWidth 32 = BitVec.ofNat 32 (now.toNat + dur.toNat) := by
  apply BitVec.eq_of_toNat_eq
  have := dur.isLt
  simp

/-- The state of a NOTE_ON when its key byte is built: the note loaded and the FNum low byte written. -/
def noteLoaded (ch : Chan) (freq : Freq) (level : BitVec 4) (s : State) : State :=
  chipWrite (floAddr s.config ch) (floByte (fnumOf s.config.fsam freq)) (loadNote ch freq level s)

theorem noteOn_eq (ch : Chan) (freq : Freq) (level : BitVec 4) (dur : BitVec 16) (s : State) :
    noteOn ch freq level dur s =
      startNote ch dur (writeVolume ch (writeKey ch true (noteLoaded ch freq level s))) := by
  simp [noteOn, noteLoaded, loadNote]

@[simp] theorem noteLoaded_config (ch : Chan) (freq : Freq) (level : BitVec 4) (s : State) :
    (noteLoaded ch freq level s).config = s.config := by simp [noteLoaded, loadNote]

@[simp] theorem noteLoaded_rhyEn (ch : Chan) (freq : Freq) (level : BitVec 4) (s : State) :
    (noteLoaded ch freq level s).rhyEn = s.rhyEn := by simp [noteLoaded, loadNote]

@[simp] theorem noteLoaded_now (ch : Chan) (freq : Freq) (level : BitVec 4) (s : State) :
    (noteLoaded ch freq level s).now = s.now := by simp [noteLoaded, loadNote]

@[simp] theorem noteLoaded_channel_same (ch : Chan) (freq : Freq) (level : BitVec 4) (s : State) :
    (noteLoaded ch freq level s).channel ch =
      { s.channel ch with block := calcBlock freq, fnum := fnumOf s.config.fsam freq, att := level } := by
  simp [noteLoaded, loadNote]

theorem noteLoaded_channel_ne {ch ch' : Chan} (freq : Freq) (level : BitVec 4) (s : State) (h : ch' ≠ ch) :
    (noteLoaded ch freq level s).channel ch' = s.channel ch' := by
  simp [noteLoaded, loadNote, channel_setChannel_ne _ _ _ _ h]

theorem noteLoaded_writes (ch : Chan) (freq : Freq) (level : BitVec 4) (s : State) :
    ChipWrites [(floAddr s.config ch, floByte (fnumOf s.config.fsam freq))] s (noteLoaded ch freq level s) := by
  have hl : ChipWrites [] s (loadNote ch freq level s) := .none_of_port rfl rfl rfl rfl
  exact hl.trans (chipWrite_writes _ _ _)

/-- Loading a note leaves KEYSNAP alone (41_register_builder.md R124). -/
theorem noteLoaded_keySnap (ch : Chan) (freq : Freq) (level : BitVec 4) (s : State) :
    keySnap (noteLoaded ch freq level s) = keySnap s := by
  refine keySnap_congr (by simp) fun c => ?_
  by_cases h : c = ch
  · rw [h, noteLoaded_channel_same]; rfl
  · rw [noteLoaded_channel_ne freq level s h]

/-! ### startNote and stopNote -/

theorem startNote_channel_same (ch : Chan) (dur : BitVec 16) (s : State) :
    (startNote ch dur s).channel ch =
      { s.channel ch with
        key := if dur.toNat > 0 then .soundingTimed else .sounding
        deadline := if dur.toNat > 0 then BitVec.ofNat 32 (s.now.toNat + dur.toNat) else 0 } := by
  unfold startNote
  by_cases h : dur = 0
  · simp [h]
  · have h' : dur.toNat > 0 := by
      rcases Nat.eq_zero_or_pos dur.toNat with h0 | h0
      · exact absurd (BitVec.eq_of_toNat_eq h0) h
      · exact h0
    rw [if_neg h, channel_setChannel_same, if_pos h', if_pos h', deadline_eq]

theorem startNote_channel_ne {ch ch' : Chan} (dur : BitVec 16) (s : State) (h : ch' ≠ ch) :
    (startNote ch dur s).channel ch' = s.channel ch' := by
  unfold startNote; split <;> exact channel_setChannel_ne _ _ _ _ h

@[simp] theorem startNote_rhyEn (ch : Chan) (dur : BitVec 16) (s : State) : (startNote ch dur s).rhyEn = s.rhyEn := by
  unfold startNote; split <;> rfl

theorem startNote_writes (ch : Chan) (dur : BitVec 16) (s : State) : ChipWrites [] s (startNote ch dur s) := by
  unfold startNote; split <;> exact .none_of_port rfl rfl rfl rfl

/-- The write of a key-off, given the key write as one chip write. -/
theorem keyOff_writes {ch : Chan} {s : State} {a : Addr} {d : Byte} (h : writeKey ch false s = chipWrite a d s) :
    ChipWrites [(a, d)] s (keyOff ch s) := by
  have hs : ChipWrites [] (chipWrite a d s) (stopNote ch (chipWrite a d s)) := .none_of_port rfl rfl rfl rfl
  rw [keyOff, h]
  exact (chipWrite_writes a d s).trans hs

end Sys2Proof.Machine
end

