-- ==== Sys2Proof/Laws/PerInstr.lean ====
section
/-! SUPPORT. The per-instruction family TableRow: a command's word matches its row of spec/opcode_table.json
(30_encoding.md R72). -/

namespace Sys2Proof.Laws.TableRow

/-- The row's opcode (spec/opcode_table.json: match = opcode * 2^44 under the mask 0xF00000000000). -/
def rowOpcode : Instr → Nat
  | .beginCmd => 1
  | .noteOn .. => 2
  | .noteOff .. => 3
  | .tick => 4
  | .setVolume .. => 5
  | .setRhythm .. => 6
  | .setInstrument .. => 7

/-- The word of `i` matches the row of `i`. -/
def Statement (i : Instr) : Prop := (encode i &&& 0xF00000000000#48).toNat = rowOpcode i * 2 ^ 44

/-- A packed word shows its opcode under the row mask. -/
theorem packWord_row (op ch : BitVec 4) (freq : Freq) (level : BitVec 4) (dur : BitVec 16) (flag : Bool) :
    (packWord op ch freq level dur flag &&& 0xF00000000000#48).toNat = op.toNat * 2 ^ 44 := by
  have hf : flag.toNat < 2 := by cases flag <;> decide
  rw [Machine.and_mask_op, Machine.packWord_toNat, Machine.wordNumber]
  omega

theorem beginCmd : Statement .beginCmd := packWord_row 1 0 0 0 0 false

theorem noteOn (ch : BitVec 4) (freq : Freq) (level : BitVec 4) (dur : BitVec 16) :
    Statement (.noteOn ch freq level dur) := packWord_row 2 ch freq level dur false

theorem noteOff (ch : BitVec 4) : Statement (.noteOff ch) := packWord_row 3 ch 0 0 0 false

theorem tick : Statement .tick := packWord_row 4 0 0 0 0 false

theorem setVolume (ch level : BitVec 4) : Statement (.setVolume ch level) := packWord_row 5 ch 0 level 0 false

theorem setRhythm (en : Bool) : Statement (.setRhythm en) := packWord_row 6 0 0 0 0 en

theorem setInstrument (ch instr : BitVec 4) (sus : Bool) : Statement (.setInstrument ch instr sus) :=
  packWord_row 7 ch 0 instr 0 sus

end Sys2Proof.Laws.TableRow
end

