-- ==== Sys2Proof/Tests/Slice0.lean ====
section
/-! SUPPORT. Tests: expected results are the spec's own examples and vectors (95_test_vectors.md unless said
otherwise), then one witness for each statement that has hypotheses. -/

namespace Sys2Proof.Tests

open Sys2Proof.Machine

/-! ### Small states -/

/-- Reset with rhythm mode on. -/
def rhythmOn : State := { State.reset with rhyEn := true }

/-- Reset with one channel at a key state and deadline. -/
def keyed (s : State) (ch : Chan) (key : KeyState) (deadline : Time) : State :=
  s.setChannel ch { Channel.reset with key := key, deadline := deadline }

/-- The state a command leaves. -/
def after (o : Host.Outcome State Fault Refusal) : State :=
  match o with
  | .next t => t
  | _ => State.reset

/-- The events a command from a state without events emits. -/
def eventsOf (o : Host.Outcome State Fault Refusal) : List PortEvent := (after o).events

/-! ### The checks of the assembler refuse what does not fit (30_encoding.md R85, R71) -/

theorem test_ch_too_wide : (Asm.noteOff 16).wellFormed = false ∧ (Asm.noteOff 16).assemble = none := by decide
theorem test_freq_too_wide : (Asm.noteOn 0 65536 0 0).wellFormed = false := by decide
theorem test_level_too_wide : (Asm.setVolume 0 16).wellFormed = false := by decide
theorem test_dur_too_wide : (Asm.noteOn 0 0 0 65536).wellFormed = false := by decide
theorem test_enable_too_wide : (Asm.setRhythm 2).wellFormed = false := by decide
theorem test_instr_too_wide : (Asm.setInstrument 0 16 0).wellFormed = false := by decide
theorem test_sustain_too_wide : (Asm.setInstrument 0 0 2).wellFormed = false := by decide
theorem test_untimed_too_wide : (Asm.noteOnUntimed 0 65536 0).assemble = none := by decide
theorem test_volume_max_too_wide : (Asm.setVolumeMax 16).assemble = none := by decide

/-- The line of 95_test_vectors.md 1.5, as text (30_encoding.md R85, R87). -/
theorem test_assemble_line :
    assembleLine 7 "NOTE_ON 0, 0x1B8, 0, 50 @t=49".toList = some (.command 0x2001B8000320 49) := by decide

/-- R86's `SET_VOLUME_MAX`, and a line in error. -/
theorem test_assemble_pseudo_line :
    assembleLine 7 "SET_VOLUME_MAX 8".toList = some (.command 0x580000000000 7) ∧
    assembleLine 7 "NOTE_OFF 16".toList = none ∧ assembleLine 7 "TICK 1".toList = none := by decide

/-! ### Decoding: each row's word written out bit by bit from 30_encoding.md R71, R72 -/

theorem test_decode_begin : decode 0b0001_0000_0000000000000000_0000_0000000000000000_000_0#48 = .command .beginCmd := by
  decide
theorem test_decode_noteOn :
    decode 0b0010_0101_0000000110111000_0011_0000000000110010_000_0#48 = .command (.noteOn 5 440 3 50) := by decide
theorem test_decode_noteOff : decode 0b0011_1000_0000000000000000_0000_0000000000000000_000_0#48 = .command (.noteOff 8) := by
  decide
theorem test_decode_tick : decode 0b0100_0000_0000000000000000_0000_0000000000000000_111_1#48 = .command .tick := by decide
theorem test_decode_setVolume :
    decode 0b0101_0010_0000000000000000_1111_0000000000000000_000_0#48 = .command (.setVolume 2 15) := by decide
theorem test_decode_setRhythm :
    decode 0b0110_1111_1111111111111111_1111_1111111111111111_111_0#48 = .command (.setRhythm false) ∧
    decode 0b0110_0000_0000000000000000_0000_0000000000000000_000_1#48 = .command (.setRhythm true) := by decide
theorem test_decode_setInstrument :
    decode 0b0111_0101_0000000000000000_0011_0000000000000000_000_1#48 = .command (.setInstrument 5 3 true) := by decide
theorem test_decode_reserved : decode 0x000000000000#48 = .reserved 0 ∧ decode 0xF00000000000#48 = .reserved 15 := by
  decide
theorem test_decodeTableWord :
    decodeTableWord 48 0x2001B8000320 = some (.noteOn 0 440 0 50) ∧ decodeTableWord 48 0x8123456789AB = none := by decide

/-! ### The combinational units (sections 1 to 3) -/

theorem test_calcBlock_edges :
    [0, 64, 65, 129, 130, 260, 261, 522, 523, 1045, 1046, 2092, 2093, 4185, 4186, 5000].map calcBlock =
      [1, 1, 2, 2, 3, 3, 4, 4, 5, 5, 6, 6, 7, 7, 7, 7] := by decide
theorem test_calcFNum :
    calcFNum 49716 440 4 = 290 ∧ calcFNum 49716 65535 0 = 691109 ∧ calcFNum 49716 6215 7 = 512 ∧
    calcFNum 49715 883 5 = 291 ∧ calcFNum 49716 883 5 = 290 := by decide
theorem test_fnum_wraps : fnumOf 49716 8000 = 147 ∧ fnumOf 49716 65535 = 279 := by decide
theorem test_buildInstrumentByte :
    buildInstrumentByte true true 3 0x1AB = 0x37 ∧ buildInstrumentByte false true 9 0 = 0x12 ∧
    buildInstrumentByte false true 1 0x200 = 0x12 ∧ buildInstrumentByte true false 4 290 = 0x29 := by decide
theorem test_buildRhythmByte :
    buildRhythmByte true 2 true 0b11001 = 0x3D ∧ buildRhythmByte true 4 false 0b11111 = 0x2F ∧
    buildRhythmByte false 5 true 0b11111 = 0x1F ∧ buildRhythmByte true 0 true 0 = 0x21 := by decide
/-- 30_encoding.md R82: ROLEBIT. -/
theorem test_roleBit : [Role.hh, .cym, .tom, .sd, .bd].map roleBit = [0, 1, 2, 3, 4] := by decide
theorem test_volByte : volByte 3 5 = 0x35 ∧ floByte 290 = 0x22 := by decide

/-! ### The commands -/

/-- V-BEGIN-1: no key-off is sent and the channel is recorded Idle. -/
theorem test_begin :
    let t := after (exec .beginCmd (keyed rhythmOn 0 .sounding 0))
    t.events = [.portBegin] ∧ (t.channel 0).key = .idle ∧ t.rhyEn = false := by decide

/-- 1.5, first row. -/
theorem test_noteOn_timed :
    let t := after (step (State.reset.withFetchWord 48 0x2001B8000320))
    t.events = [.addr 0x10, .data 0x22, .addr 0x20, .data 0x19, .addr 0x30, .data 0x00] ∧
    t.channel 0 = { Channel.reset with key := .soundingTimed, deadline := 50, block := 4, fnum := 290 } := by decide

/-- V-ON-5, second command, and V-ON-7's deadline. -/
theorem test_noteOn_percussion_and_wrap :
    eventsOf (exec (.noteOn 4 100 2 0) rhythmOn) =
      [.addr 0x14, .data 0x07, .addr 0x0E, .data 0x30, .addr 0x34, .data 0x02] ∧
    ((after (exec (.noteOn 2 1000 0 32) { State.reset with now := 0xFFFFFFF0 })).channel 2).deadline = 0x10 := by decide

/-- V-OFF-4: the sustain bit is read at key-off. -/
theorem test_noteOff :
    let s := State.reset.setChannel 2 { Channel.reset with key := .sounding, block := 5, fnum := 172, sus := true, instr := 9 }
    eventsOf (exec (.noteOff 2) s) = [.addr 0x22, .data 0x2A] ∧ ((after (exec (.noteOff 2) s)).channel 2).key = .idle := by
  decide

/-- 10_state.md R21: the codes of STATE. -/
theorem test_keyState_code : [KeyState.idle, .sounding, .soundingTimed].map KeyState.code = [0, 1, 2] := by decide

/-- V-OFF-2: an Idle channel. -/
theorem test_noteOff_idle : eventsOf (exec (.noteOff 1) State.reset) = [] := by decide

/-- V-TICK-2's times on a channel of block 0 and FNum 0 (control byte by 41_register_builder.md R120): equality fires,
and one millisecond earlier does not. -/
theorem test_tick_equality :
    eventsOf (exec .tick { keyed State.reset 0 .soundingTimed 50 with now := 50 }) = [.addr 0x20, .data 0x00] ∧
    eventsOf (exec .tick { keyed State.reset 0 .soundingTimed 50 with now := 49 }) = [] := by decide

/-- V-TICK-4: two percussion releases in one TICK, the second data-only and seeing the first. -/
theorem test_tick_percussion :
    eventsOf (exec .tick { keyed (keyed rhythmOn 8 .soundingTimed 10) 4 .soundingTimed 10 with now := 10 }) =
      [.addr 0x0E, .data 0x22, .data 0x20] := by decide

/-- V-VOL-2: the data phase is sent again, the instrument in the high nibble. -/
theorem test_setVolume :
    let t := after (exec (.setVolume 8 15) State.reset)
    t.events = [.addr 0x38, .data 0x0F] ∧ (after (exec (.setVolume 8 15) t)).events = t.events ++ [.data 0x0F] := by decide

theorem test_setVolume_nibbles :
    eventsOf (exec (.setVolume 0 5) (State.reset.setChannel 0 { Channel.reset with instr := 3 })) =
      [.addr 0x30, .data 0x35] := by decide

/-- V-RHY-2: the snapshot of melodic notes on slots 6 and 8. -/
theorem test_setRhythm :
    eventsOf (exec (.setRhythm true) (keyed (keyed State.reset 6 .sounding 0) 8 .sounding 0)) =
      [.addr 0x0E, .data 0x2A] := by decide

/-- V-INS-1. -/
theorem test_setInstrument :
    let t := after (exec (.setInstrument 5 3 true) State.reset)
    (t.channel 5).instr = 3 ∧ (t.channel 5).sus = true ∧ t.events = [] := by decide

/-- V-RSV-2: a reserved word takes its turn and does nothing else. -/
theorem test_reserved :
    let s := { State.reset with inputs := [.command 0x8123456789AB 14] }
    (after (step s)).inputs = [] ∧ (after (step s)).events = [] ∧ (after (step s)).channels = s.channels := by decide

/-- 60_exceptions.md R203: FSAM = 0 is refused; R12: so is a mapping that is no bijection. -/
theorem test_config_build :
    Config.build 0 14 16 32 48 #v[.bd, .hh, .sd, .tom, .cym] = none ∧
    Config.build 49716 14 16 32 48 #v[.bd, .bd, .sd, .tom, .cym] = none ∧
    Config.build 49716 14 16 32 48 #v[.bd, .hh, .sd, .tom, .cym] = some Config.default := by decide

/-- The default addresses are all distinct (92_eei_decisions.md, open parameters). -/
theorem test_default_addresses_distinct : AddressesDistinct Config.default := by decide

/-! ### Witnesses: each statement's hypotheses can be met -/

/-- A state some commands have been through: a timed note on channel 0, its volume register written last. -/
def playing : State := after (step (State.reset.withFetchWord 48 0x2001B8000320))

/-- The same with a TICK past the deadline presented. -/
def playingTick : State := { playing with inputs := [.command 0x400000000000 60] }

theorem witness_ReservedOpcodesAreIgnored :
    (0x0FFFFFFFFFFF#48).toNat / 2 ^ 44 = 0 ∧ 8 ≤ (0x800000000000#48).toNat / 2 ^ 44 ∧
    8 ≤ (0xFFFFFFFFFFFF#48).toNat / 2 ^ 44 := by decide

theorem witness_DontCareBitsAreIgnored :
    0x4FFFFFFFFFFF#48 &&& careMaskOfOp ((0x4FFFFFFFFFFF#48).toNat / 2 ^ 44) =
      0x400000000000#48 &&& careMaskOfOp ((0x4FFFFFFFFFFF#48).toNat / 2 ^ 44) := by decide

theorem witness_BlockIsTheFirstBoundaryAbove :
    ([0, 65, 130, 261, 523, 1046, 2093, 4186][1]? = some 65 ∧ 65 > (64 : Freq).toNat ∧ 0 ≤ (64 : Freq).toNat) ∧
    ([0, 65, 130, 261, 523, 1046, 2093, 4186][7]? = some 4186 ∧ 4186 > (4185 : Freq).toNat ∧ 2093 ≤ (4185 : Freq).toNat) ∧
    (4186 : Freq).toNat ≥ 4186 := by decide

theorem witness_FNumIsTheExactQuotient : 1 ≤ 1 ∧ (calcFNum 1 65535 0).toNat = 34359214080 := by decide

theorem witness_FNumCornerCases : 1 ≤ 1 ∧ calcFNum 1 0 7 = 0 := by decide

/-- Both ends of every row of 40_frequency_encoder.md R107. -/
theorem witness_NoteFrequencyRanges :
    [0, 64, 65, 129, 130, 260, 261, 522, 523, 1045, 1046, 2092, 2093, 6214, 6215, 65535].map
      (fun f => (calcFNum 49716 f (calcBlock f)).toNat) =
      [0, 337, 171, 340, 171, 342, 172, 344, 172, 344, 172, 344, 172, 511, 512, 5399] := by decide

theorem witness_RhythmByteFields :
    (2 : BitVec 3).toNat < 5 ∧ (4 : BitVec 3).toNat < 5 ∧ ¬ (5 : BitVec 3).toNat < 5 := by decide

theorem witness_KeySnapshotFollowsTheSlots :
    4 ≤ (4 : Chan).val ∧ 4 ≤ (8 : Chan).val ∧ ((keyed State.reset 8 .sounding 0).channel 8).key ≠ .idle := by decide

theorem witness_ChipWriteEffect :
    (playing.lastValid = true ∧ playing.lastAddr = 0x30) ∧ ¬ (playing.lastValid = true ∧ playing.lastAddr = 0x31) ∧
    ¬ (State.reset.lastValid = true ∧ State.reset.lastAddr = 0) := by decide

theorem witness_AlternatingWritesSendEveryAddress :
    (0x10 : Addr) ≠ 0x11 ∧ latched State.reset ≠ some 0x10 ∧ latched playing ≠ some 0x10 := by decide

/-- A chip with the block's cached address latched; after reset nothing is cached, and any chip will do. -/
theorem witness_SkippedAddressPhasesAreInvisible :
    (∀ a, latched playing = some a → ({ latch := some 0x30, regs := [] } : ChipView).latch = some a) ∧
    (∀ a, latched State.reset = some a → ({ latch := some 0x31, regs := [] } : ChipView).latch = some a) := by
  have hp : latched playing = some 0x30 := by decide
  have hr : latched State.reset = none := by decide
  simp [hp, hr]

theorem witness_NoteOnEffect :
    9 ≤ (9 : BitVec 4).toNat ∧ ((8 : BitVec 4).toNat < 9 ∧ ¬ (State.reset.rhyEn = true ∧ 4 ≤ (8 : BitVec 4).toNat)) ∧
    ((3 : BitVec 4).toNat < 9 ∧ ¬ (rhythmOn.rhyEn = true ∧ 4 ≤ (3 : BitVec 4).toNat)) ∧
    ((4 : BitVec 4).toNat < 9 ∧ rhythmOn.rhyEn = true ∧ 4 ≤ (4 : BitVec 4).toNat) := by decide

theorem witness_NoteOnForgetsThePreviousNote :
    (4 : BitVec 4).toNat < 9 ∧ ((keyed rhythmOn 4 .sounding 0).channel 4).key ≠ .idle := by decide

theorem witness_InvalidChannelIsIgnored :
    (8 : BitVec 4).toNat < 9 ∧ 9 ≤ (9 : BitVec 4).toNat ∧ 9 ≤ (15 : BitVec 4).toNat := by decide

theorem witness_NoteOffEffect :
    9 ≤ (15 : BitVec 4).toNat ∧ (State.reset.channel 0).key = .idle ∧
    (((keyed State.reset 8 .sounding 0).channel 8).key ≠ .idle ∧ (keyed State.reset 8 .sounding 0).rhyEn = false) ∧
    (((keyed rhythmOn 3 .soundingTimed 5).channel 3).key ≠ .idle ∧ ¬ 4 ≤ (3 : BitVec 4).toNat) ∧
    (((keyed rhythmOn 4 .sounding 0).channel 4).key ≠ .idle ∧ (keyed rhythmOn 4 .sounding 0).rhyEn = true ∧
      4 ≤ (4 : BitVec 4).toNat) := by decide

theorem witness_TickWithNothingDueDoesNothing :
    ∀ ch, (({ playing with now := 49 } : State).channel ch).key = .soundingTimed →
      ({ playing with now := 49 } : State).now.toNat < (({ playing with now := 49 } : State).channel ch).deadline.toNat := by
  decide

theorem witness_TickIsIdempotent :
    ∃ t u, exec .tick { playing with now := 50 } = .next t ∧ exec .tick (sampleInputs 60 [] t) = .next u ∧
      (playing.channel 0).key = .soundingTimed ∧ (playing.channel 0).deadline.toNat ≤ 50 :=
  ⟨_, _, rfl, rfl, by decide, by decide⟩

theorem witness_TimedReleaseRoundTrip :
    ∃ t u, 0 < (50 : BitVec 16).toNat ∧ exec (.noteOn 0 440 0 50) State.reset = .next t ∧
      exec .tick (sampleInputs 50 [] t) = .next u :=
  ⟨_, _, by decide, rfl, rfl⟩

theorem witness_SetVolumeEffect : (0 : BitVec 4).toNat < 9 ∧ (8 : BitVec 4).toNat < 9 ∧ 9 ≤ (9 : BitVec 4).toNat := by decide

theorem witness_SetInstrumentEffect : (0 : BitVec 4).toNat < 9 ∧ (8 : BitVec 4).toNat < 9 ∧ 9 ≤ (9 : BitVec 4).toNat := by decide

theorem witness_StepRunsTheDecodedCommand :
    playingTick.inputs = .command 0x400000000000 60 :: [] ∧ decode 0x400000000000#48 = .command .tick ∧
    decode 0x900000000000#48 = .reserved 9 := by decide

theorem witness_FetchedWordRunsNext : decodeTableWord 48 0x400000000000 = some .tick := by decide

theorem witness_HardwareResetStep :
    ({ playing with inputs := [.hardwareReset] } : State).inputs = .hardwareReset :: [] := by decide

theorem witness_OnlyOverlapIsRefused :
    ({ playing with inputs := [.overlapped 0x400000000000 60] } : State).inputs = .overlapped 0x400000000000 60 :: [] ∧
    ∀ cmd now rest, playingTick.inputs ≠ .overlapped cmd now :: rest := by
  refine ⟨by decide, fun cmd now rest h => ?_⟩
  exact absurd h (by simp [playingTick])

theorem witness_NothingPresentedNothingMoves : playing.inputs = [] := by decide

theorem witness_EveryStepKeepsTheRegistersInAgreement :
    RegistersAgree playingTick ∧ ∃ t, step playingTick = .next t :=
  ⟨{ shadow_wf := by decide
     deadline_zero := by decide
     fresh := fun h => absurd h (by decide)
     cached := fun _ => ⟨0, by decide⟩ }, _, rfl⟩

theorem witness_EveryStepKeepsTheImageTrue : ImageTrue playingTick ∧ ∃ t, step playingTick = .next t := by
  have h : (chipAfter playingTick.events).regs = playingTick.shadow := by decide
  exact ⟨{ latch := by decide, regs := fun a d hd => h ▸ hd }, _, rfl⟩

theorem witness_OnlyTheRegisterMapIsWritten :
    ShadowInMap State.reset ∧ (∃ t, step (State.reset.withFetchWord 48 0x2001B8000320) = .next t) ∧ playing.shadow ≠ [] :=
  ⟨fun a d h => by simp [State.reset] at h, ⟨_, rfl⟩, by decide⟩

theorem witness_FloAddressIsNeverLeftLatched :
    AddressesDistinct playingTick.config ∧ LatchNotFlo playingTick ∧ ∃ t, step playingTick = .next t := by
  refine ⟨by decide, fun _ => ?_, _, rfl⟩
  decide

theorem witness_PortEventCounts :
    AddressesDistinct playing.config ∧ LatchNotFlo playing ∧ (playing.channel 0).key ≠ .idle ∧
    (8 : BitVec 4).toNat < 9 ∧ (∃ t, exec (.noteOff 0) playing = .next t) ∧
    (∃ t, exec (.noteOn 8 440 0 0) playing = .next t) ∧ ∃ t, exec (.setRhythm true) playing = .next t := by
  refine ⟨by decide, fun _ => ?_, by decide, by decide, ⟨_, rfl⟩, ⟨_, rfl⟩, _, rfl⟩
  decide

theorem witness_StepsOnlyAddEvents : ∃ t, step playingTick = .next t := ⟨_, rfl⟩

theorem witness_OnlyTheListedCommandsWriteARegister :
    ∃ t, exec (.setInstrument 5 3 true) State.reset = .next t ∧ (t.channel 5).sus ≠ (State.reset.channel 5).sus :=
  ⟨_, rfl, by decide⟩

theorem witness_TogglingRhythmStrandsAKeyBit :
    ∃ t u, AddressesDistinct rhythmOn.config ∧ ((keyed rhythmOn 4 .sounding 0).channel 4).key ≠ .idle ∧
      exec (.setRhythm false) (keyed rhythmOn 4 .sounding 0) = .next t ∧ exec (.noteOff 4) t = .next u :=
  ⟨_, _, by decide, by decide, rfl, rfl⟩

theorem witness_OnlyValidParametersBuildABlock :
    (∃ c, Config.build 1 255 247 247 247 #v[.cym, .tom, .sd, .hh, .bd] = some c) ∧
    ∀ r : Role, r = .bd ∨ r = .hh ∨ r = .sd ∨ r = .tom ∨ r = .cym :=
  ⟨⟨_, rfl⟩, fun r => by cases r <;> simp⟩

end Sys2Proof.Tests
end

/-! ## Rules of the state, 10_state.md -/

namespace Sys2Proof.Machine

/-! ### Nothing presented -/

/-- Settles O38: the first arm of `step` is the wait. -/
theorem nothingPresentedNothingMoves : Obligations.NothingPresentedNothingMoves := by
  intro s hs
  simp [step, hs, waitForHost]

/-! ### KEYSNAP -/

theorem getLsbD_foldl_or {α : Type} {w : Nat} (f : α → BitVec w) (l : List α) (acc : BitVec w) (i : Nat) :
    (l.foldl (fun acc a => acc ||| f a) acc).getLsbD i = (acc.getLsbD i || l.any fun a => (f a).getLsbD i) := by
  induction l generalizing acc with
  | nil => simp
  | cons a l ih => simp [ih, Bool.or_assoc]

theorem roleOfChannel_of_slot (c : Config) {ch : Chan} (h : 4 ≤ ch.val) :
    roleOfChannel c ch = some (c.roleOfSlot[ch.val - 4]'(by omega)) := dif_pos h

theorem four_le_of_roleOfChannel {c : Config} {ch : Chan} {r : Role} (h : roleOfChannel c ch = some r) :
    4 ≤ ch.val := by
  by_contra h4
  simp [roleOfChannel, h4] at h

/-- Two slots with one role are the same slot (00_scope.md R12). -/
theorem roleOfChannel_inj {c : Config} {a b : Chan} {r : Role} (ha : roleOfChannel c a = some r)
    (hb : roleOfChannel c b = some r) : a = b := by
  have ha4 := four_le_of_roleOfChannel ha
  have hb4 := four_le_of_roleOfChannel hb
  rw [roleOfChannel_of_slot c ha4] at ha
  rw [roleOfChannel_of_slot c hb4] at hb
  have hget : c.roleOfSlot.toList[a.val - 4]'(by simp; omega) = c.roleOfSlot.toList[b.val - 4]'(by simp; omega) := by
    simpa using ha.trans hb.symm
  have hidx := (List.Nodup.getElem_inj_iff c.roles_nodup).mp hget
  exact Fin.ext (by omega)

/-- Five distinct roles are all the roles (00_scope.md R12). -/
theorem mem_roleOfSlot (c : Config) (r : Role) : r ∈ c.roleOfSlot.toList := by
  have hsub : c.roleOfSlot.toList ⊆ [.bd, .hh, .sd, .tom, .cym] := fun r _ => by cases r <;> simp
  have hperm := (c.roles_nodup.subperm hsub).perm_of_length_le (by simp)
  rw [hperm.mem_iff]
  cases r <;> simp

theorem exists_slot_of_role (c : Config) (r : Role) :
    ∃ (ch : Chan) (h : 4 ≤ ch.val), c.roleOfSlot[ch.val - 4]'(by omega) = r := by
  obtain ⟨k, hk, hr⟩ := List.getElem_of_mem (mem_roleOfSlot c r)
  have hk5 : k < 5 := by simpa using hk
  exact ⟨⟨k + 4, by omega⟩, by simp, by simpa using hr⟩

/-- A role's bit alone stands at the role's position (30_encoding.md R82). -/
theorem getLsbD_one_shiftLeft_roleBit (r r' : Role) :
    (1#5 <<< (roleBit r).toNat).getLsbD (roleBit r').toNat = decide (r = r') := by
  cases r <;> cases r' <;> rfl

/-- One slot's share of KEYSNAP, read at a role's bit (10_state.md R32). -/
theorem keySnapBit_getLsbD (s : State) (ch : Chan) (r : Role) :
    (keySnapBit s ch).getLsbD (roleBit r).toNat =
      (decide (roleOfChannel s.config ch = some r) && (s.channel ch).keyed) := by
  unfold keySnapBit
  cases hr : roleOfChannel s.config ch with
  | none => simp
  | some r' =>
      cases hk : (s.channel ch).keyed with
      | false => simp
      | true => simpa using getLsbD_one_shiftLeft_roleBit r' r

/-- KEYSNAP at a role's bit is the key of the one slot that plays the role. -/
theorem keySnap_getLsbD {s : State} {ch : Chan} {r : Role} (hr : roleOfChannel s.config ch = some r) :
    (keySnap s).getLsbD (roleBit r).toNat = (s.channel ch).keyed := by
  have hany : (keySnap s).getLsbD (roleBit r).toNat =
      allChannels.any fun c => decide (roleOfChannel s.config c = some r) && (s.channel c).keyed := by
    simp [keySnap, getLsbD_foldl_or, keySnapBit_getLsbD]
  rw [hany, Bool.eq_iff_iff, List.any_eq_true]
  constructor
  · rintro ⟨c, -, hc⟩
    obtain ⟨hrole, hkey⟩ : roleOfChannel s.config c = some r ∧ (s.channel c).keyed = true := by simpa using hc
    rwa [roleOfChannel_inj hr hrole]
  · intro hkey
    exact ⟨ch, mem_allChannels ch, by simp [hr, hkey]⟩

theorem keyed_eq_decide (c : Channel) : c.keyed = decide (c.key ≠ .idle) := by
  rw [Channel.keyed, bne, beq_eq_decide, decide_not]

/-- Settles O16: a role's bit collects the share of one slot, and the five slots hold five distinct roles. -/
theorem keySnapshotFollowsTheSlots : Obligations.KeySnapshotFollowsTheSlots := by
  intro s
  refine ⟨fun ch h => ?_, exists_slot_of_role s.config, by decide⟩
  rw [keySnap_getLsbD (roleOfChannel_of_slot s.config h), keyed_eq_decide]

/-! ### What a command can do -/

/-- The channel after a NOTE_ON taken in `s` (42_channel_commands.md R142, R145). -/
def Channel.noted (c : Channel) (s : State) (freq : Freq) (level : BitVec 4) (dur : BitVec 16) : Channel :=
  { c with
    block := calcBlock freq
    fnum := fnumOf s.config.fsam freq
    att := level
    key := if dur.toNat > 0 then .soundingTimed else .sounding
    deadline := if dur.toNat > 0 then BitVec.ofNat 32 (s.now.toNat + dur.toNat) else 0 }

/-- The states a command can answer from `s`: its effect on a valid channel, or `s` itself, which is the answer when
the channel is invalid or NOTE_OFF finds it Idle. -/
inductive Answers (s : State) : Instr → State → Prop
  | ignored (i : Instr) : Answers s i s
  | beginCmd : Answers s .beginCmd (emit .portBegin (resetRegisters s))
  | noteOn (c : Chan) (freq : Freq) (level : BitVec 4) (dur : BitVec 16) :
      Answers s (.noteOn (BitVec.ofNat 4 c.val) freq level dur) (noteOn c freq level dur s)
  | noteOff (c : Chan) (h : (s.channel c).key ≠ .idle) : Answers s (.noteOff (BitVec.ofNat 4 c.val)) (keyOff c s)
  | tick : Answers s .tick (allChannels.foldl tickChannel s)
  | setVolume (c : Chan) (level : BitVec 4) :
      Answers s (.setVolume (BitVec.ofNat 4 c.val) level)
        (writeVolume c (s.setChannel c { s.channel c with att := level }))
  | setRhythm (en : Bool) :
      Answers s (.setRhythm en)
        (chipWrite s.config.aRhy (buildRhythmByte en undefinedRole false (keySnap { s with rhyEn := en }))
          { s with rhyEn := en })
  | setInstrument (c : Chan) (instr : BitVec 4) (sus : Bool) :
      Answers s (.setInstrument (BitVec.ofNat 4 c.val) instr sus)
        (s.setChannel c { s.channel c with instr := instr, sus := sus })

theorem eq_ofNat_of_channelIndex {ch : BitVec 4} {c : Chan} (h : channelIndex ch = some c) :
    ch = BitVec.ofNat 4 c.val := by
  rw [← channelIndex_eq_some h, BitVec.ofNat_toNat, BitVec.setWidth_eq]

theorem exec_answers {i : Instr} {s t : State} (h : exec i s = .next t) : Answers s i t := by
  cases i with
  | beginCmd =>
      obtain rfl := Host.Outcome.next.inj h
      exact .beginCmd
  | noteOn ch freq level dur =>
      simp only [exec, execNoteOn] at h
      split at h <;> obtain rfl := Host.Outcome.next.inj h
      · next c hc =>
          obtain rfl := eq_ofNat_of_channelIndex hc
          exact .noteOn c freq level dur
      · exact .ignored _
  | noteOff ch =>
      simp only [exec, execNoteOff] at h
      split at h
      · next c hc =>
          obtain rfl := eq_ofNat_of_channelIndex hc
          split at h <;> obtain rfl := Host.Outcome.next.inj h
          · exact .ignored _
          · next hkey => exact .noteOff c hkey
      · obtain rfl := Host.Outcome.next.inj h
        exact .ignored _
  | tick =>
      obtain rfl := Host.Outcome.next.inj h
      exact .tick
  | setVolume ch level =>
      simp only [exec, execSetVolume] at h
      split at h <;> obtain rfl := Host.Outcome.next.inj h
      · next c hc =>
          obtain rfl := eq_ofNat_of_channelIndex hc
          exact .setVolume c level
      · exact .ignored _
  | setRhythm en =>
      obtain rfl := Host.Outcome.next.inj h
      exact .setRhythm en
  | setInstrument ch instr sus =>
      simp only [exec, execSetInstrument] at h
      split at h <;> obtain rfl := Host.Outcome.next.inj h
      · next c hc =>
          obtain rfl := eq_ofNat_of_channelIndex hc
          exact .setInstrument c instr sus
      · exact .ignored _

/-! ### What a command can leave in a channel -/

theorem noteOn_channel (c ch : Chan) (freq : Freq) (level : BitVec 4) (dur : BitVec 16) (s : State) :
    (noteOn c freq level dur s).channel ch =
      if ch = c then (s.channel c).noted s freq level dur else s.channel ch := by
  rw [noteOn_eq]
  by_cases h : ch = c
  · simp [h, startNote_channel_same, Channel.noted]
  · simp [h, startNote_channel_ne, noteLoaded_channel_ne]

@[simp] theorem noteOn_rhyEn (ch : Chan) (freq : Freq) (level : BitVec 4) (dur : BitVec 16) (s : State) :
    (noteOn ch freq level dur s).rhyEn = s.rhyEn := by simp [noteOn_eq]

/-- TICK releases the listed channels that are due and no other (42_channel_commands.md R149). -/
theorem tick_channel (l : List Chan) (s : State) (ch : Chan) :
    (l.foldl tickChannel s).channel ch = if ch ∈ l ∧ due s ch then (s.channel ch).released else s.channel ch := by
  induction l generalizing s with
  | nil => simp
  | cons c l ih =>
      have hnow : (tickChannel s c).now = s.now := (contained_tickChannel s c).host.now
      rw [List.foldl_cons, ih]
      by_cases hc : ch = c ∧ due s c = true
      · obtain ⟨rfl, hd⟩ := hc
        have hchan : (tickChannel s ch).channel ch = (s.channel ch).released := by simp [tickChannel_channel, hd]
        have hdone : due (tickChannel s ch) ch = false := by simp [due, hchan, Channel.released]
        simp [hdone, hchan, hd]
      · have hchan : (tickChannel s c).channel ch = s.channel ch := by rw [tickChannel_channel, if_neg hc]
        rw [hchan, due_congr hnow hchan]
        by_cases hcc : ch = c
        · subst hcc
          have hd : due s ch ≠ true := fun hd => hc ⟨rfl, hd⟩
          simp [hd]
        · simp [hcc]

/-- The values a command can leave in channel `ch` (the write columns of 10_state.md R36). -/
inductive Leaves (s : State) (ch : Chan) : Instr → Channel → Prop
  | kept (i : Instr) : Leaves s ch i (s.channel ch)
  | beginCmd : Leaves s ch .beginCmd Channel.reset
  | noteOn (freq : Freq) (level : BitVec 4) (dur : BitVec 16) :
      Leaves s ch (.noteOn (BitVec.ofNat 4 ch.val) freq level dur) ((s.channel ch).noted s freq level dur)
  | noteOff : Leaves s ch (.noteOff (BitVec.ofNat 4 ch.val)) (s.channel ch).released
  | tick (h : due s ch = true) : Leaves s ch .tick (s.channel ch).released
  | setVolume (level : BitVec 4) :
      Leaves s ch (.setVolume (BitVec.ofNat 4 ch.val) level) { s.channel ch with att := level }
  | setInstrument (instr : BitVec 4) (sus : Bool) :
      Leaves s ch (.setInstrument (BitVec.ofNat 4 ch.val) instr sus) { s.channel ch with instr := instr, sus := sus }

theorem Answers.leaves {i : Instr} {s t : State} (h : Answers s i t) (ch : Chan) : Leaves s ch i (t.channel ch) := by
  cases h with
  | ignored => exact .kept i
  | beginCmd =>
      rw [emit_channel, resetRegisters_channel]
      exact .beginCmd
  | noteOn c freq level dur =>
      rw [noteOn_channel]
      split
      · next e => subst e; exact .noteOn freq level dur
      · exact .kept _
  | noteOff c =>
      rw [keyOff_channel]
      split
      · next e => subst e; exact .noteOff
      · exact .kept _
  | tick =>
      rw [tick_channel]
      split
      · next hd => exact .tick hd.2
      · exact .kept _
  | setVolume c level =>
      rw [writeVolume_channel, channel_setChannel]
      split
      · next e => subst e; exact .setVolume level
      · exact .kept _
  | setRhythm =>
      rw [chipWrite_channel]
      exact .kept _
  | setInstrument c instr sus =>
      rw [channel_setChannel]
      split
      · next e => subst e; exact .setInstrument instr sus
      · exact .kept _

/-! ### The write columns of the register table, 10_state.md R36 -/

section
variable {i : Instr} {s t : State} {ch : Chan} {c : Channel}

theorem Answers.of_rhyEn_ne (h : Answers s i t) (hne : t.rhyEn ≠ s.rhyEn) :
    i = .beginCmd ∨ ∃ en, i = .setRhythm en := by
  cases h with
  | beginCmd => exact .inl rfl
  | setRhythm en => exact .inr ⟨en, rfl⟩
  | ignored => exact absurd rfl hne
  | noteOn c freq level dur => exact absurd (noteOn_rhyEn c freq level dur s) hne
  | noteOff c => exact absurd (keyOff_rhyEn c s) hne
  | tick => exact absurd (tick_rhyEn _ s) hne
  | setVolume c => exact absurd (writeVolume_rhyEn c _) hne
  | setInstrument => exact absurd rfl hne

theorem Leaves.of_sus_or_instr_ne (h : Leaves s ch i c)
    (hne : c.sus ≠ (s.channel ch).sus ∨ c.instr ≠ (s.channel ch).instr) :
    i = .beginCmd ∨ ∃ instr sus, i = .setInstrument (BitVec.ofNat 4 ch.val) instr sus := by
  cases h with
  | beginCmd => exact .inl rfl
  | setInstrument instr sus => exact .inr ⟨instr, sus, rfl⟩
  | kept | noteOn | noteOff | tick | setVolume => simp [Channel.noted, Channel.released] at hne

theorem Leaves.of_att_ne (h : Leaves s ch i c) (hne : c.att ≠ (s.channel ch).att) :
    i = .beginCmd ∨ (∃ level, i = .setVolume (BitVec.ofNat 4 ch.val) level) ∨
      ∃ freq level dur, i = .noteOn (BitVec.ofNat 4 ch.val) freq level dur := by
  cases h with
  | beginCmd => exact .inl rfl
  | setVolume level => exact .inr (.inl ⟨level, rfl⟩)
  | noteOn freq level dur => exact .inr (.inr ⟨freq, level, dur, rfl⟩)
  | kept | noteOff | tick | setInstrument => exact absurd rfl hne

theorem Leaves.of_block_or_fnum_ne (h : Leaves s ch i c)
    (hne : c.block ≠ (s.channel ch).block ∨ c.fnum ≠ (s.channel ch).fnum) :
    i = .beginCmd ∨ ∃ freq level dur, i = .noteOn (BitVec.ofNat 4 ch.val) freq level dur := by
  cases h with
  | beginCmd => exact .inl rfl
  | noteOn freq level dur => exact .inr ⟨freq, level, dur, rfl⟩
  | kept | noteOff | tick | setVolume | setInstrument => simp [Channel.released] at hne

theorem Leaves.of_key_or_deadline_ne (h : Leaves s ch i c)
    (hne : c.key ≠ (s.channel ch).key ∨ c.deadline ≠ (s.channel ch).deadline) :
    i = .beginCmd ∨ i = .tick ∨ i = .noteOff (BitVec.ofNat 4 ch.val) ∨
      ∃ freq level dur, i = .noteOn (BitVec.ofNat 4 ch.val) freq level dur := by
  cases h with
  | beginCmd => exact .inl rfl
  | tick => exact .inr (.inl rfl)
  | noteOff => exact .inr (.inr (.inl rfl))
  | noteOn freq level dur => exact .inr (.inr (.inr ⟨freq, level, dur, rfl⟩))
  | kept | setVolume | setInstrument => simp at hne

/-- SET_INSTRUMENT leaves the register image alone (42_channel_commands.md R153). -/
theorem Answers.image_of_setInstrument {chField instr : BitVec 4} {sus : Bool}
    (h : Answers s (.setInstrument chField instr sus) t) :
    t.lastValid = s.lastValid ∧ t.lastAddr = s.lastAddr ∧ t.shadow = s.shadow := by
  cases h with
  | ignored => exact ⟨rfl, rfl, rfl⟩
  | setInstrument => exact ⟨rfl, rfl, rfl⟩

end

/-- Settles O46, from what a command can answer and what it can leave in a channel. -/
theorem onlyTheListedCommandsWriteARegister : Obligations.OnlyTheListedCommandsWriteARegister := by
  intro i s t h
  have ha := exec_answers h
  refine ⟨ha.of_rhyEn_ne, fun ch => (ha.leaves ch).of_sus_or_instr_ne, fun ch => (ha.leaves ch).of_att_ne,
    fun ch => (ha.leaves ch).of_block_or_fnum_ne, fun ch => (ha.leaves ch).of_key_or_deadline_ne, ?_⟩
  rintro hne ch instr sus rfl
  obtain ⟨hv, hl, hs⟩ := ha.image_of_setInstrument
  simp [hv, hl, hs] at hne

/-! ### The registers agree -/

/-- A channel without a running note timer has no deadline (10_state.md R37(b)). -/
def Channel.TimerAgrees (c : Channel) : Prop := c.key ≠ .soundingTimed → c.deadline = 0

theorem Channel.noted_timerAgrees (c : Channel) (s : State) (freq : Freq) (level : BitVec 4) (dur : BitVec 16) :
    (c.noted s freq level dur).TimerAgrees := by
  by_cases h : dur.toNat > 0
  · exact fun hk => absurd (if_pos h) hk
  · exact fun _ => if_neg h

theorem Leaves.timerAgrees {s : State} {ch : Chan} {i : Instr} {c : Channel} (h : Leaves s ch i c)
    (hs : (s.channel ch).TimerAgrees) : c.TimerAgrees := by
  cases h with
  | kept | setVolume | setInstrument => exact hs
  | beginCmd | noteOff | tick => exact fun _ => rfl
  | noteOn freq level dur => exact Channel.noted_timerAgrees _ s freq level dur

/-- A cache that is still invalid saw no write, so a fresh image is still fresh (10_state.md R37(d)). -/
theorem ChipWrites.fresh {ws : List (Addr × Byte)} {s t : State} (hw : ChipWrites ws s t) (hwf : t.shadow.wf)
    (hs : s.lastValid = false → s.lastAddr = 0 ∧ s.shadow = []) (hv : t.lastValid = false) :
    t.lastAddr = 0 ∧ t.shadow = [] := by
  obtain ⟨hvs, rfl⟩ : s.lastValid = false ∧ ws = [] := by simpa [hw.lastValid] using hv
  obtain ⟨ha, hempty⟩ := hs hvs
  refine ⟨by simpa [ha] using hw.lastAddr, Memory.ext_of_read hwf Memory.wf_nil fun a => ?_⟩
  simp [hw.shadow, hempty, lastWrite]

/-- The address cached is the one written last, which SHADOW records, or the one cached before (10_state.md R37(e)). -/
theorem ChipWrites.cached {ws : List (Addr × Byte)} {s t : State} (hw : ChipWrites ws s t)
    (hs : s.lastValid = true → ∃ d, s.shadow.read s.lastAddr.toNat = some d) (hv : t.lastValid = true) :
    ∃ d, t.shadow.read t.lastAddr.toNat = some d := by
  rcases List.eq_nil_or_concat ws with rfl | ⟨ws, w, rfl⟩
  · obtain ⟨d, hread⟩ := hs (by simpa [hw.lastValid] using hv)
    have ha : t.lastAddr = s.lastAddr := by simpa using hw.lastAddr
    exact ⟨d, by simp [hw.shadow, ha, lastWrite, hread]⟩
  · have ha : t.lastAddr = w.1 := by simpa using hw.lastAddr
    exact ⟨w.2, by simp [hw.shadow, ha, lastWrite_append, lastWrite]⟩

theorem RegistersAgree.of_contained {s t : State} (hs : RegistersAgree s) (hc : Contained s t)
    (hd : ∀ ch, (t.channel ch).TimerAgrees) : RegistersAgree t := by
  obtain ⟨ws, hw, -⟩ := hc.port
  have hwf := hc.shadow_wf hs.shadow_wf
  exact { shadow_wf := hwf, deadline_zero := hd, fresh := hw.fresh hwf hs.fresh, cached := hw.cached hs.cached }

theorem registersAgree_resetRegisters (s : State) : RegistersAgree (resetRegisters s) where
  shadow_wf := Memory.wf_nil
  deadline_zero ch _ := by rw [resetRegisters_channel]; rfl
  fresh _ := ⟨rfl, rfl⟩
  cached hv := absurd hv Bool.false_ne_true

theorem exec_registersAgree {i : Instr} {s t : State} (hs : RegistersAgree s) (h : exec i s = .next t) :
    RegistersAgree t := by
  rcases exec_inv h with ⟨-, rfl⟩ | hc
  · -- PORT_BEGIN is no register
    exact { registersAgree_resetRegisters s with }
  · exact hs.of_contained hc fun ch => ((exec_answers h).leaves ch).timerAgrees (hs.deadline_zero ch)

theorem registersAgree_sampleInputs {s : State} (hs : RegistersAgree s) (now : Time) (rest : List HostInput) :
    RegistersAgree (sampleInputs now rest s) := { hs with }

/-- Settles O40: a step waits, ignores a word, resets every register, or runs a command, and a command either is BEGIN
or touches the image by chip writes alone. -/
theorem everyStepKeepsTheRegistersInAgreement : Obligations.EveryStepKeepsTheRegistersInAgreement := by
  intro s t hs h
  rcases step_inv h with ⟨-, rfl⟩ | ⟨cmd, now, rest, -, ⟨i, -, hi⟩ | ⟨op, -, rfl⟩⟩ | ⟨rest, -, rfl⟩
  · exact hs
  · exact exec_registersAgree (registersAgree_sampleInputs hs now rest) hi
  · exact registersAgree_sampleInputs hs now rest
  · exact registersAgree_resetRegisters _

end Sys2Proof.Machine

/-! ## The register image and the port, 20_memory.md -/

namespace Sys2Proof.Machine

/-! ### What a step can do to the host's ports and to the image -/

/-- What a step can do to the port and the image: chip writes inside the register map, or an image cleared with no
event (the hardware reset) or with PORT_BEGIN alone (BEGIN). -/
inductive PortChange (s t : State) : Prop
  | writes (ws : List (Addr × Byte)) (hw : ChipWrites ws s t) (hm : ∀ w ∈ ws, w.1 ∈ chipAddresses s.config)
  | cleared (es : List PortEvent) (hes : es = [] ∨ es = [.portBegin]) (he : t.events = s.events ++ es)
      (hv : t.lastValid = false) (hs : t.shadow = [])

theorem PortChange.of_contained {s t : State} (h : Contained s t) : PortChange s t := by
  obtain ⟨ws, hw, hm⟩ := h.port
  exact .writes ws hw hm

/-- Taking a command off the host's list leaves the port alone. -/
theorem sampleInputs_writes (now : Time) (rest : List HostInput) (s : State) :
    ChipWrites [] s (sampleInputs now rest s) := .none_of_port rfl rfl rfl rfl

theorem PortChange.of_sampleInputs {now : Time} {rest : List HostInput} {s t : State}
    (h : PortChange (sampleInputs now rest s) t) : PortChange s t := by
  cases h with
  | writes ws hw hm => exact .writes ws ((sampleInputs_writes now rest s).trans hw) hm
  | cleared es hes he hv hs => exact .cleared es hes he hv hs

theorem exec_ports {i : Instr} {s t : State} (h : exec i s = .next t) :
    t.config = s.config ∧ t.inputs = s.inputs ∧ PortChange s t := by
  rcases exec_inv h with ⟨-, rfl⟩ | hc
  · exact ⟨rfl, rfl, .cleared [.portBegin] (.inr rfl) rfl rfl rfl⟩
  · exact ⟨hc.host.config, hc.host.inputs, .of_contained hc⟩

theorem step_ports {s t : State} (h : step s = .next t) :
    t.config = s.config ∧ t.inputs = s.inputs.tail ∧ PortChange s t := by
  rcases step_inv h with ⟨hin, rfl⟩ | ⟨cmd, now, rest, hin, ⟨i, -, hi⟩ | ⟨op, -, rfl⟩⟩ | ⟨rest, hin, rfl⟩
  · exact ⟨rfl, by simp [hin], .of_contained (.refl t)⟩
  · obtain ⟨hc, hrest, hp⟩ := exec_ports hi
    exact ⟨hc, by simpa [hin] using hrest, hp.of_sampleInputs⟩
  · exact ⟨rfl, by simp [hin], .writes [] (sampleInputs_writes now rest s) (by simp)⟩
  · exact ⟨rfl, by simp [hin], .cleared [] (.inl rfl) (by simp) rfl rfl⟩

/-! ### Events are only added -/

theorem emitted_of_append {s t : State} {es : List PortEvent} (h : t.events = s.events ++ es) : emitted s t = es := by
  simp [emitted, h]

theorem PortChange.events {s t : State} (h : PortChange s t) : t.events = s.events ++ emitted s t := by
  cases h with
  | writes ws hw => rw [emitted_of_append hw.events, hw.events]
  | cleared es _ he => rw [emitted_of_append he, he]

/-- Settles O45: whatever a step does to the port, it appends to the events. -/
theorem stepsOnlyAddEvents : Obligations.StepsOnlyAddEvents := by
  intro s t h
  obtain ⟨hc, hin, hp⟩ := step_ports h
  exact ⟨hp.events, hc, hin⟩

/-! ### The register map -/

/-- The address phases of a row of writes name addresses the row writes. -/
theorem exists_write_of_addr_mem {l : Option Addr} {ws : List (Addr × Byte)} {a : Addr}
    (h : .addr a ∈ writeEvents l ws) : ∃ w ∈ ws, w.1 = a := by
  induction ws generalizing l with
  | nil => simp [writeEvents] at h
  | cons w ws ih =>
      rcases List.mem_append.mp h with h | h
      · refine ⟨w, by simp, ?_⟩
        split at h
        · simp at h
        · simpa [eq_comm] using h
      · obtain ⟨w', hm, hw'⟩ := ih h
        exact ⟨w', by simp [hm], hw'⟩

theorem PortChange.addr_in_map {s t : State} (h : PortChange s t) {a : Addr} (ha : .addr a ∈ emitted s t) :
    a ∈ chipAddresses s.config := by
  cases h with
  | writes ws hw hm =>
      rw [emitted_of_append hw.events] at ha
      obtain ⟨w, hmem, rfl⟩ := exists_write_of_addr_mem ha
      exact hm w hmem
  | cleared es hes he =>
      rw [emitted_of_append he] at ha
      rcases hes with rfl | rfl <;> simp at ha

theorem PortChange.shadowInMap {s t : State} (h : PortChange s t) (hc : t.config = s.config) (hs : ShadowInMap s) :
    ShadowInMap t := by
  intro a d hread
  rw [hc]
  cases h with
  | writes ws hw hm =>
      rw [hw.shadow, Option.or_eq_some_iff] at hread
      rcases hread with hread | ⟨-, hread⟩
      · obtain ⟨w, hmem, ha, -⟩ := mem_of_lastWrite hread
        exact ⟨w.1, hm w hmem, ha⟩
      · exact hs a d hread
  | cleared _ _ _ _ hempty => simp [hempty] at hread

/-- Settles O42: a step's chip writes stay inside the register map, and no other event carries an address. -/
theorem onlyTheRegisterMapIsWritten : Obligations.OnlyTheRegisterMapIsWritten := by
  intro s t h
  obtain ⟨hc, -, hp⟩ := step_ports h
  exact ⟨fun a => hp.addr_in_map, hp.shadowInMap hc⟩

/-! ### The image is true of the chip -/

theorem latched_eq_some {s : State} {a : Addr} : latched s = some a ↔ s.lastValid = true ∧ s.lastAddr = a := by
  simp [latched]

theorem chipAfter_append (es es' : List PortEvent) :
    chipAfter (es ++ es') = es'.foldl ChipView.receive (chipAfter es) := List.foldl_append

/-- One chip write at a chip that has the cached address latched (43_write_sequencer.md R185): the address phase may be
skipped, and the chip's register gets the byte either way. -/
theorem receive_write {l : Option Addr} {v : ChipView} {a : Addr} (d : Byte) (hl : l = some a → v.latch = some a) :
    (writeEvents l [(a, d)]).foldl ChipView.receive v = { latch := some a, regs := v.regs.write a.toNat d } := by
  by_cases h : l = some a
  · simp [writeEvents, h, ChipView.receive, hl h]
  · simp [writeEvents, h, ChipView.receive]

theorem writeEvents_cons (l : Option Addr) (a : Addr) (d : Byte) (ws : List (Addr × Byte)) :
    writeEvents l ((a, d) :: ws) = writeEvents l [(a, d)] ++ writeEvents (some a) ws := by
  simpa using writeEvents_append l [(a, d)] ws

/-- A row of chip writes at a chip that has the cached address latched: the chip's latch and registers change as the
cache and SHADOW do. -/
theorem receive_writeEvents {l : Option Addr} {v : ChipView} (ws : List (Addr × Byte))
    (hl : ∀ a, l = some a → v.latch = some a) :
    ((writeEvents l ws).foldl ChipView.receive v).latch = (ws.getLast?.map Prod.fst).or v.latch ∧
    ∀ b, ((writeEvents l ws).foldl ChipView.receive v).regs.read b = (lastWrite ws b).or (v.regs.read b) := by
  induction ws generalizing l v with
  | nil => simp [writeEvents, lastWrite]
  | cons w ws ih =>
      obtain ⟨a, d⟩ := w
      rw [writeEvents_cons, List.foldl_append, receive_write d (hl a)]
      obtain ⟨hlatch, hregs⟩ := ih (l := some a) (v := { latch := some a, regs := v.regs.write a.toNat d }) (by simp)
      refine ⟨?_, fun b => ?_⟩
      · rw [hlatch]
        cases ws <;> simp [List.getLast?_cons]
      · rw [hregs, Memory.read_write, lastWrite, Option.or_assoc]
        by_cases hb : a.toNat = b
        · simp [hb]
        · simp [hb, Ne.symm hb]

theorem ImageTrue.latch_of_latched {s : State} (hs : ImageTrue s) {a : Addr} (h : latched s = some a) :
    (chipAfter s.events).latch = some a := by
  obtain ⟨hv, rfl⟩ := latched_eq_some.mp h
  exact hs.latch hv

theorem ImageTrue.of_chipWrites {ws : List (Addr × Byte)} {s t : State} (hs : ImageTrue s) (hw : ChipWrites ws s t) :
    ImageTrue t := by
  obtain ⟨hlatch, hregs⟩ := receive_writeEvents ws fun a => hs.latch_of_latched (a := a)
  rw [← chipAfter_append, ← hw.events] at hlatch hregs
  refine { latch := fun hv => ?_, regs := fun a d hread => ?_ }
  · have hcached := hw.latched
    rw [latched_of_valid hv] at hcached
    rw [hlatch, Option.or_eq_some_iff]
    rcases Option.or_eq_some_iff.mp hcached.symm with h | ⟨hnone, h⟩
    · exact .inl h
    · exact .inr ⟨hnone, hs.latch_of_latched h⟩
  · rw [hregs, Option.or_eq_some_iff]
    rw [hw.shadow, Option.or_eq_some_iff] at hread
    exact hread.imp_right fun ⟨hnone, h⟩ => ⟨hnone, hs.regs a d h⟩

/-- Nothing cached and nothing recorded is true of every chip. -/
theorem imageTrue_of_cleared {s : State} (hv : s.lastValid = false) (hs : s.shadow = []) : ImageTrue s where
  latch h := by simp [hv] at h
  regs a d h := by simp [hs] at h

/-- Settles O41: a step writes the chip and the image alike, or clears the image. -/
theorem everyStepKeepsTheImageTrue : Obligations.EveryStepKeepsTheImageTrue := by
  intro s t hs h
  obtain ⟨-, -, hp⟩ := step_ports h
  cases hp with
  | writes ws hw => exact hs.of_chipWrites hw
  | cleared _ _ _ hv hempty => exact imageTrue_of_cleared hv hempty

end Sys2Proof.Machine

/-! ## The command word, 30_encoding.md -/

namespace Sys2Proof.Machine

/-! ### The encoder, field by field -/

@[simp] theorem encode_beginCmd_toNat : (encode .beginCmd).toNat = wordNumber 1 0 0 0 0 0 :=
  packWord_toNat 1 0 0 0 0 false

@[simp] theorem encode_noteOn_toNat (ch : BitVec 4) (freq : Freq) (level : BitVec 4) (dur : BitVec 16) :
    (encode (.noteOn ch freq level dur)).toNat = wordNumber 2 ch.toNat freq.toNat level.toNat dur.toNat 0 :=
  packWord_toNat 2 ch freq level dur false

@[simp] theorem encode_noteOff_toNat (ch : BitVec 4) :
    (encode (.noteOff ch)).toNat = wordNumber 3 ch.toNat 0 0 0 0 :=
  packWord_toNat 3 ch 0 0 0 false

@[simp] theorem encode_tick_toNat : (encode .tick).toNat = wordNumber 4 0 0 0 0 0 :=
  packWord_toNat 4 0 0 0 0 false

@[simp] theorem encode_setVolume_toNat (ch level : BitVec 4) :
    (encode (.setVolume ch level)).toNat = wordNumber 5 ch.toNat 0 level.toNat 0 0 :=
  packWord_toNat 5 ch 0 level 0 false

@[simp] theorem encode_setRhythm_toNat (en : Bool) :
    (encode (.setRhythm en)).toNat = wordNumber 6 0 0 0 0 en.toNat :=
  packWord_toNat 6 0 0 0 0 en

@[simp] theorem encode_setInstrument_toNat (ch instr : BitVec 4) (sus : Bool) :
    (encode (.setInstrument ch instr sus)).toNat = wordNumber 7 ch.toNat 0 instr.toNat 0 sus.toNat :=
  packWord_toNat 7 ch 0 instr 0 sus

/-- Settles O2: every row of the encoder is `packWord` at the row's opcode. -/
theorem encodingPlacesEveryField : Obligations.EncodingPlacesEveryField :=
  ⟨encode_beginCmd_toNat, encode_noteOn_toNat, encode_noteOff_toNat, encode_tick_toNat, encode_setVolume_toNat,
    encode_setRhythm_toNat, encode_setInstrument_toNat⟩

/-! ### The words of a command -/

theorem flagField_eq_iff (w : Cmd) (b : Bool) : flagField w = b ↔ w.toNat % 2 = b.toNat := by
  rw [← flagField_toNat]
  cases flagField w <;> cases b <;> decide

/-- The words of a command are those that agree with its encoding on the bits it uses (30_encoding.md R71, R74). -/
theorem decode_eq_command_iff (i : Instr) (w : Cmd) : decode w = .command i ↔ w &&& careMask i = encode i := by
  have hw := w.isLt
  rw [← BitVec.toNat_inj]
  cases i with
  | beginCmd =>
      rw [decode_beginCmd_iff, careMask, and_mask_op, encode_beginCmd_toNat, wordNumber]
      omega
  | noteOn ch freq level dur =>
      rw [decode_noteOn_iff, careMask, and_mask_noteOn, encode_noteOn_toNat, wordNumber]
      simp only [← BitVec.toNat_inj, chField_toNat, freqField_toNat, levelField_toNat, durField_toNat]
      omega
  | noteOff ch =>
      rw [decode_noteOff_iff, careMask, and_mask_noteOff, encode_noteOff_toNat, wordNumber, ← BitVec.toNat_inj,
        chField_toNat]
      omega
  | tick =>
      rw [decode_tick_iff, careMask, and_mask_op, encode_tick_toNat, wordNumber]
      omega
  | setVolume ch level =>
      rw [decode_setVolume_iff, careMask, and_mask_setVolume, encode_setVolume_toNat, wordNumber]
      simp only [← BitVec.toNat_inj, chField_toNat, levelField_toNat]
      omega
  | setRhythm en =>
      have hen := en.toNat_lt
      rw [decode_setRhythm_iff, careMask, and_mask_setRhythm, encode_setRhythm_toNat, wordNumber, flagField_eq_iff]
      omega
  | setInstrument ch instr sus =>
      have hsus := sus.toNat_lt
      rw [decode_setInstrument_iff, careMask, and_mask_setInstrument, encode_setInstrument_toNat, wordNumber]
      simp only [← BitVec.toNat_inj, chField_toNat, levelField_toNat, flagField_eq_iff]
      omega

/-- A command's word uses no don't-care bit (30_encoding.md R74). -/
theorem encode_and_careMask (i : Instr) : encode i &&& careMask i = encode i := by
  apply BitVec.eq_of_toNat_eq
  cases i with
  | beginCmd =>
      rw [careMask, and_mask_op, encode_beginCmd_toNat, wordNumber]
      rfl
  | noteOn ch freq level dur =>
      rw [careMask, and_mask_noteOn, encode_noteOn_toNat, wordNumber]
      omega
  | noteOff ch =>
      rw [careMask, and_mask_noteOff, encode_noteOff_toNat, wordNumber]
      omega
  | tick =>
      rw [careMask, and_mask_op, encode_tick_toNat, wordNumber]
      rfl
  | setVolume ch level =>
      rw [careMask, and_mask_setVolume, encode_setVolume_toNat, wordNumber]
      omega
  | setRhythm en =>
      have hen := en.toNat_lt
      rw [careMask, and_mask_setRhythm, encode_setRhythm_toNat, wordNumber]
      omega
  | setInstrument ch instr sus =>
      have hsus := sus.toNat_lt
      rw [careMask, and_mask_setInstrument, encode_setInstrument_toNat, wordNumber]
      omega

@[simp] theorem decode_encode (i : Instr) : decode (encode i) = .command i :=
  (decode_eq_command_iff i _).mpr (encode_and_careMask i)

/-- Settles O1: a row's opcode and fields are read off exactly the bits its mask keeps. -/
theorem decodeReadsExactlyTheWordsOfACommand : Obligations.DecodeReadsExactlyTheWordsOfACommand :=
  fun i => ⟨decode_encode i, decode_eq_command_iff i⟩

/-! ### Don't-care bits -/

theorem decode_reserved_iff (w : Cmd) (op : BitVec 4) :
    decode w = .reserved op ↔ opField w = op ∧ (op.toNat = 0 ∨ 8 ≤ op.toNat) := by
  unfold decode
  split
  case h_8 =>
    have hop : (opField w).toNat = 0 ∨ 8 ≤ (opField w).toNat := by grind
    simp only [Decoded.reserved.injEq]
    exact ⟨fun h => ⟨h, h ▸ hop⟩, And.left⟩
  all_goals
    simp only [reduceCtorEq, false_iff]
    rintro ⟨rfl, hop⟩
    omega

theorem opcode_of_decode {w : Cmd} {i : Instr} (h : decode w = .command i) :
    w.toNat / 2 ^ 44 = Laws.TableRow.rowOpcode i := by
  rw [decode_eq] at h
  split at h <;> cases h <;> assumption

theorem careMaskOfOp_rowOpcode (i : Instr) : careMaskOfOp (Laws.TableRow.rowOpcode i) = careMask i := by
  cases i <;> rfl

/-- Every row looks at the whole opcode. -/
theorem opField_careMaskOfOp (n : Nat) : opField (careMaskOfOp n) = BitVec.allOnes 4 := by
  unfold careMaskOfOp
  split <;> decide

theorem opField_and_careMaskOfOp (w : Cmd) (n : Nat) : opField (w &&& careMaskOfOp n) = opField w := by
  have hmask := opField_careMaskOfOp n
  rw [opField] at hmask ⊢
  rw [BitVec.extractLsb'_and, hmask, BitVec.and_allOnes, opField]

/-- Words that agree on the bits their opcode uses decode alike (30_encoding.md R74). -/
theorem decode_congr_of_careMaskOfOp {w w' : Cmd}
    (h : w &&& careMaskOfOp (w.toNat / 2 ^ 44) = w' &&& careMaskOfOp (w.toNat / 2 ^ 44)) : decode w' = decode w := by
  cases hw : decode w with
  | command i =>
      rw [opcode_of_decode hw, careMaskOfOp_rowOpcode] at h
      rwa [decode_eq_command_iff, ← h, ← decode_eq_command_iff]
  | reserved op =>
      have hop : opField w = opField w' := by simpa only [opField_and_careMaskOfOp] using congrArg opField h
      rwa [decode_reserved_iff, ← hop, ← decode_reserved_iff]

/-- Settles O4: agreement on the used bits gives one decoding, and the assembler's words lie inside their masks. -/
theorem dontCareBitsAreIgnored : Obligations.DontCareBitsAreIgnored := by
  refine ⟨fun w w' h s => ?_, fun i => ?_⟩
  · rw [runCommand, runCommand, decode_congr_of_careMaskOfOp h]
  · rw [← encode_and_careMask, BitVec.and_assoc, BitVec.and_not_self]
    exact BitVec.and_zero

/-! ### The assembler -/

theorem assemble_congr {a b : Asm} (hw : a.wellFormed = b.wellFormed) (hi : a.toInstr = b.toInstr) :
    a.assemble = b.assemble := by
  simp only [Asm.assemble, hw, hi]

/-- An operand that fits a flag is the flag's number. -/
theorem beq_one_toNat {n : Nat} (h : n < 2) : (n == 1).toNat = n := by
  interval_cases n <;> rfl

/-- A form whose operands fit when `p` holds, and whose command then has the word numbered `n`. -/
theorem assemble_eq_ite {a : Asm} {i : Instr} {p : Prop} [Decidable p] {n : Nat} (hi : a.toInstr = some i)
    (hp : a.wellFormed = true ↔ p) (hn : p → (encode i).toNat = n) :
    a.assemble = if p then some (BitVec.ofNat 48 n) else none := by
  by_cases h : p
  · simp [Asm.assemble, hi, hp, h, ← hn h]
  · simp [Asm.assemble, hp, h]

/-- Settles O7: an operand that fits its field is the field's number. -/
theorem assemblerNeverTruncates : Obligations.AssemblerNeverTruncates := by
  refine ⟨fun ch freq level dur => ?_, fun ch => ?_, fun ch level => ?_, fun en => ?_, fun ch instr sus => ?_⟩
  · refine assemble_eq_ite rfl (by simp [Asm.wellFormed, and_assoc]) ?_
    rintro ⟨hch, hfreq, hlevel, hdur⟩
    simp [Nat.mod_eq_of_lt, *]
  · refine assemble_eq_ite rfl (by simp [Asm.wellFormed]) fun hch => ?_
    simp [Nat.mod_eq_of_lt, hch]
  · refine assemble_eq_ite rfl (by simp [Asm.wellFormed]) ?_
    rintro ⟨hch, hlevel⟩
    simp [Nat.mod_eq_of_lt, *]
  · refine assemble_eq_ite rfl (by simp [Asm.wellFormed]) fun hen => ?_
    simp [beq_one_toNat hen]
  · refine assemble_eq_ite rfl (by simp [Asm.wellFormed, and_assoc]) ?_
    rintro ⟨hch, hinstr, hsus⟩
    simp [Nat.mod_eq_of_lt, beq_one_toNat, *]

/-- Settles O5: each line is closed, and the assembler computes it. -/
theorem workedEncodings : Obligations.WorkedEncodings := by
  unfold Obligations.WorkedEncodings
  decide

/-- Settles O6: each word is closed, and the decoder computes it. -/
theorem writtenOutWordsDecode : Obligations.WrittenOutWordsDecode := by
  unfold Obligations.WrittenOutWordsDecode
  decide

/-- Settles O8: a pseudo-instruction and its expansion have the same operands to fit and stand for one command. -/
theorem pseudoInstructionsExpand : Obligations.PseudoInstructionsExpand := by
  refine ⟨by decide, ⟨by decide, fun s => rfl⟩, fun ch freq level => ?_, fun ch => ?_, ?_, ?_⟩
  · exact assemble_congr (by simp [Asm.wellFormed]) rfl
  · exact assemble_congr (by simp [Asm.wellFormed]) rfl
  · exact assemble_congr rfl rfl
  · exact assemble_congr rfl rfl

/-! ### Channel commands on an invalid channel -/

section
variable {ch : BitVec 4} (h : 9 ≤ ch.toNat) (s : State)
include h

theorem exec_noteOn_of_ge (freq : Freq) (level : BitVec 4) (dur : BitVec 16) :
    exec (.noteOn ch freq level dur) s = .next s := by
  simp [exec, execNoteOn, channelIndex_of_ge h, ignore]

theorem exec_noteOff_of_ge : exec (.noteOff ch) s = .next s := by
  simp [exec, execNoteOff, channelIndex_of_ge h, ignore]

theorem exec_setVolume_of_ge (level : BitVec 4) : exec (.setVolume ch level) s = .next s := by
  simp [exec, execSetVolume, channelIndex_of_ge h, ignore]

theorem exec_setInstrument_of_ge (instr : BitVec 4) (sus : Bool) :
    exec (.setInstrument ch instr sus) s = .next s := by
  simp [exec, execSetInstrument, channelIndex_of_ge h, ignore]

end

/-- Settles O24: a channel field of 9 or more has no index, and each channel command then ignores the word. -/
theorem invalidChannelIsIgnored : Obligations.InvalidChannelIsIgnored :=
  ⟨chField_toNat, fun _ h => channelIndex_of_lt h, fun _ s h =>
    ⟨exec_noteOn_of_ge h s, exec_noteOff_of_ge h s, exec_setVolume_of_ge h s, exec_setInstrument_of_ge h s⟩⟩

end Sys2Proof.Machine

/-! ## The frequency encoder, 40_frequency_encoder.md -/

namespace Sys2Proof.Machine

/-! ### CALC_BLOCK -/

/-- Scanning from index `k` stops at the first boundary above the frequency. -/
theorem scanBoundary_of_first {freq b : Freq} {bs : List Freq} {i : Nat} (k : Nat) (hi : bs[i]? = some b)
    (hb : freq < b) (hbelow : ∀ j c, j < i → bs[j]? = some c → c ≤ freq) :
    scanBoundary freq k bs = BitVec.ofNat 3 (k + i) := by
  induction bs generalizing i k with
  | nil => simp at hi
  | cons a rest ih =>
      cases i with
      | zero =>
          obtain rfl : a = b := by simpa using hi
          simp [scanBoundary, hb]
      | succ i =>
          have ha : ¬ freq < a := BitVec.not_lt.mpr (hbelow 0 a (by omega) rfl)
          rw [scanBoundary, if_neg ha, ih (k + 1) hi fun j c hj hc => hbelow (j + 1) c (by omega) hc]
          congr 1
          omega

/-- A scan that meets no boundary above the frequency ends in block 7. -/
theorem scanBoundary_of_forall_le {freq : Freq} {bs : List Freq} (k : Nat) (h : ∀ c ∈ bs, c ≤ freq) :
    scanBoundary freq k bs = 7 := by
  induction bs generalizing k with
  | nil => rfl
  | cons a rest ih =>
      obtain ⟨ha, hrest⟩ := List.forall_mem_cons.mp h
      rw [scanBoundary, if_neg (BitVec.not_lt.mpr ha), ih (k + 1) hrest]

theorem boundary_sorted : boundary.Pairwise (· ≤ ·) := by decide

/-- The boundaries as numbers, as 00_scope.md R9 lists them. -/
theorem boundary_map_toNat : boundary.map BitVec.toNat = [0, 65, 130, 261, 523, 1046, 2093, 4186] := rfl

/-- The boundaries ascend, so a frequency between two neighbours has the upper one's index for its block. -/
theorem calcBlock_of_between {freq lo hi : Freq} (i : Nat) (hlo : boundary[i]? = some lo)
    (hhi : boundary[i + 1]? = some hi) (hle : lo ≤ freq) (hlt : freq < hi) :
    calcBlock freq = BitVec.ofNat 3 (i + 1) := by
  rw [calcBlock, scanBoundary_of_first 0 hhi hlt, Nat.zero_add]
  intro j c hj hc
  obtain ⟨hi', rfl⟩ := List.getElem?_eq_some_iff.mp hlo
  obtain ⟨hj', rfl⟩ := List.getElem?_eq_some_iff.mp hc
  exact BitVec.le_trans (boundary_sorted.rel_get_of_le (a := ⟨j, hj'⟩) (b := ⟨i, hi'⟩) (Nat.le_of_lt_succ hj)) hle

theorem boundary_le_last : ∀ c ∈ boundary, c ≤ 4186#16 := by simp [boundary]

/-- The last boundary is the greatest, so at or above it no boundary is left. -/
theorem calcBlock_of_ge_last {freq : Freq} (h : 4186#16 ≤ freq) : calcBlock freq = 7 :=
  scanBoundary_of_forall_le 0 fun c hc => BitVec.le_trans (boundary_le_last c hc) h

/-- Block 7 is the last boundary's index and also the answer where none is above (40_frequency_encoder.md R102). -/
theorem calcBlock_eq_seven {freq : Freq} (h : 2093#16 ≤ freq) : calcBlock freq = 7 := by
  by_cases hlast : freq < 4186#16
  · exact calcBlock_of_between 6 rfl rfl h hlast
  · exact calcBlock_of_ge_last (BitVec.not_lt.mp hlast)

/-- Settles O9: the scan stops at the first boundary above the frequency, or runs off the list. -/
theorem blockIsTheFirstBoundaryAbove : Obligations.BlockIsTheFirstBoundaryAbove := by
  intro freq
  simp only [← boundary_map_toNat, List.getElem?_map, Option.map_eq_some_iff]
  refine ⟨?_, fun h => calcBlock_of_ge_last h⟩
  rintro i _ ⟨b, hi, rfl⟩ hb hbelow
  have hlt : i < 8 := (List.getElem?_eq_some_iff.mp hi).1
  rw [calcBlock, scanBoundary_of_first 0 hi hb fun j c hj hc => hbelow j _ hj ⟨c, hc, rfl⟩]
  simp [Nat.mod_eq_of_lt hlt]

/-! ### CALC_FNUM -/

/-- The largest numerator is the largest frequency's in block 0. -/
theorem fnumNumerator_le (freq : Freq) (block : BitVec 3) :
    freq.toNat * 2 ^ (19 - block.toNat) ≤ 34359214080 :=
  calc freq.toNat * 2 ^ (19 - block.toNat)
      ≤ 65535 * 2 ^ 19 :=
        Nat.mul_le_mul (Nat.le_of_lt_succ freq.isLt) (Nat.pow_le_pow_right (by decide) (Nat.sub_le 19 _))
    _ = 34359214080 := by decide

/-- A quotient is at most its numerator (0 for a divisor 0), so neither bound asks for a positive FSAM. -/
theorem calcFNum_quotient_le (fsam : Nat) (freq : Freq) (block : BitVec 3) :
    freq.toNat * 2 ^ (19 - block.toNat) / fsam ≤ 34359214080 :=
  Nat.le_trans (Nat.div_le_self _ _) (fnumNumerator_le freq block)

/-- 35 bits hold the quotient (40_frequency_encoder.md R104). -/
@[simp] theorem calcFNum_toNat (fsam : Nat) (freq : Freq) (block : BitVec 3) :
    (calcFNum fsam freq block).toNat = freq.toNat * 2 ^ (19 - block.toNat) / fsam := by
  have hle := calcFNum_quotient_le fsam freq block
  rw [calcFNum, BitVec.toNat_ofNat, Nat.mod_eq_of_lt (by omega)]

/-- In one block a higher frequency has no lower FNum. -/
theorem calcFNum_mono {f g : Freq} (fsam : Nat) (block : BitVec 3) (h : f ≤ g) :
    (calcFNum fsam f block).toNat ≤ (calcFNum fsam g block).toNat := by
  rw [calcFNum_toNat, calcFNum_toNat]
  exact Nat.div_le_div_right (Nat.mul_le_mul_right _ h)

/-- Settles O10: the numerator, and so the quotient, fits in 35 bits. -/
theorem fNumIsTheExactQuotient : Obligations.FNumIsTheExactQuotient := fun fsam freq block _ =>
  ⟨calcFNum_toNat fsam freq block, calcFNum_toNat fsam freq block ▸ calcFNum_quotient_le fsam freq block⟩

/-- Settles O11: the quotient of 0 is 0, and cutting to 9 bits is the remainder by 512. -/
theorem fNumCornerCases : Obligations.FNumCornerCases := by
  refine ⟨fun fsam block _ => ?_, by simp, fun fsam freq => ?_⟩
  · apply BitVec.eq_of_toNat_eq
    simp
  · exact BitVec.toNat_setWidth ..

/-! ### The NOTE_ON path -/

/-- A row of R107: over a range of frequencies in one block, the raw FNum lies between those of the range's ends. -/
theorem noteFrequency_row {freq lo hi : Freq} {block : BitVec 3} (hblock : calcBlock freq = block)
    (hlo : lo ≤ freq) (hhi : freq ≤ hi) :
    (calcBlock freq).toNat = block.toNat ∧
    (calcFNum 49716 lo block).toNat ≤ (calcFNum 49716 freq (calcBlock freq)).toNat ∧
    (calcFNum 49716 freq (calcBlock freq)).toNat ≤ (calcFNum 49716 hi block).toNat :=
  hblock ▸ ⟨rfl, calcFNum_mono _ _ hlo, calcFNum_mono _ _ hhi⟩

/-- Settles O12: each row is a range of frequencies in one block, and the FNums of its ends are computed. -/
theorem noteFrequencyRanges : Obligations.NoteFrequencyRanges := by
  intro freq
  dsimp only
  refine ⟨fun hhi => ?_, fun ⟨hlo, hhi⟩ => ?_, fun ⟨hlo, hhi⟩ => ?_, fun ⟨hlo, hhi⟩ => ?_, fun ⟨hlo, hhi⟩ => ?_,
    fun ⟨hlo, hhi⟩ => ?_, fun ⟨hlo, hhi⟩ => ?_, fun hlo => ?_⟩
  · obtain ⟨hb, -, hle⟩ := noteFrequency_row (lo := 0#16) (hi := 64#16)
      (calcBlock_of_between 0 rfl rfl (Nat.zero_le _) (Nat.lt_succ_of_le hhi)) (Nat.zero_le _) hhi
    exact ⟨hb, hle⟩
  · exact noteFrequency_row (lo := 65#16) (hi := 129#16)
      (calcBlock_of_between 1 rfl rfl hlo (Nat.lt_succ_of_le hhi)) hlo hhi
  · exact noteFrequency_row (lo := 130#16) (hi := 260#16)
      (calcBlock_of_between 2 rfl rfl hlo (Nat.lt_succ_of_le hhi)) hlo hhi
  · exact noteFrequency_row (lo := 261#16) (hi := 522#16)
      (calcBlock_of_between 3 rfl rfl hlo (Nat.lt_succ_of_le hhi)) hlo hhi
  · exact noteFrequency_row (lo := 523#16) (hi := 1045#16)
      (calcBlock_of_between 4 rfl rfl hlo (Nat.lt_succ_of_le hhi)) hlo hhi
  · exact noteFrequency_row (lo := 1046#16) (hi := 2092#16)
      (calcBlock_of_between 5 rfl rfl hlo (Nat.lt_succ_of_le hhi)) hlo hhi
  · exact noteFrequency_row (lo := 2093#16) (hi := 6214#16) (calcBlock_eq_seven hlo) hlo hhi
  · exact noteFrequency_row (lo := 6215#16) (hi := 65535#16)
      (calcBlock_eq_seven (Nat.le_trans (by decide) hlo)) hlo (Nat.le_of_lt_succ freq.isLt)

end Sys2Proof.Machine

/-! ## The register builder, 41_register_builder.md -/

namespace Sys2Proof.Machine

/-! ### The rhythm byte -/

/-- A single bit shifted into a five-bit word sits at its own index and nowhere else. -/
theorem getLsbD_ofBool_shiftLeft (b : Bool) {r : Nat} (hr : r < 5) (k : Nat) :
    ((BitVec.ofBool b).setWidth 5 <<< r).getLsbD k = (decide (k = r) && b) := by
  cases b with
  | false => simp
  | true => simpa [BitVec.twoPow_eq, hr, eq_comm] using BitVec.getLsbD_twoPow (w := 5) r k

/-- R125's key bits, one at a time. -/
theorem rhythmKeys_getLsbD (role : BitVec 3) (keyOn : Bool) (snap : BitVec 5) (k : Nat) :
    (rhythmKeys role keyOn snap).getLsbD k =
      if role.toNat < 5 ∧ k = role.toNat then keyOn else snap.getLsbD k := by
  unfold rhythmKeys
  split
  case isTrue hrole => rw [if_neg (by omega)]
  case isFalse hrole =>
    have hlt : role.toNat < 5 := by omega
    have hmask : (1#5 <<< role.toNat).getLsbD k = decide (k = role.toNat) := by
      simpa using getLsbD_ofBool_shiftLeft true hlt k
    rw [BitVec.getLsbD_or, BitVec.getLsbD_and, BitVec.getLsbD_not, hmask, getLsbD_ofBool_shiftLeft keyOn hlt]
    by_cases hk : k = role.toNat
    · simp [hk, hlt]
    · by_cases hk5 : k < 5
      · simp [hk, hk5]
      · simp [hk, hk5, BitVec.getLsbD_of_ge snap k (by omega)]

/-- Settles O14: the keys are the low five bits of the byte, and the enable bit and two zeros stand above them. -/
theorem rhythmByteFields : Obligations.RhythmByteFields := by
  intro enable key role snap k
  rw [buildRhythmByte, BitVec.getLsbD_append, BitVec.getLsbD_append, rhythmKeys_getLsbD]
  rcases Nat.lt_trichotomy k 5 with hk | rfl | hk
  · simp [hk, hk.ne, hk.not_gt]
  · simp
  · have : ¬ k - 5 < 1 := by omega
    simp [this, hk, hk.ne', hk.not_gt]

/-! ### The control, FNum-low and volume bytes -/

/-- Concatenation as arithmetic: the right-hand field is the low digits. -/
theorem toNat_append_eq_add {m n : Nat} (x : BitVec m) (y : BitVec n) :
    (x ++ y).toNat = x.toNat * 2 ^ n + y.toNat := by
  rw [BitVec.toNat_append, ← Nat.shiftLeft_add_eq_or_of_lt y.isLt, Nat.shiftLeft_eq]

/-- Settles O13: the fields' widths 2, 1, 1, 3 and 1 give their weights in the byte. -/
theorem instrumentByteFields : Obligations.InstrumentByteFields := by
  intro sus key octave fnum
  have hoctave : (octave.extractLsb' 0 3).toNat = octave.toNat % 8 := by simp
  have hfnum : (fnum.getLsbD 8).toNat = fnum.toNat / 256 % 2 := by
    rw [BitVec.getLsbD, Nat.toNat_testBit]
  simp only [buildInstrumentByte, toNat_append_eq_add, BitVec.toNat_ofBool, hoctave, hfnum, BitVec.toNat_ofNat]
  omega

/-- Settles O15: the low byte is a remainder by 256, and the volume byte is two hexadecimal digits. -/
theorem lowAndVolumeBytes : Obligations.LowAndVolumeBytes :=
  ⟨fun fnum => by simp [floByte], fun instr att => toNat_append_eq_add instr att⟩

end Sys2Proof.Machine

/-! ## The channel commands, 42_channel_commands.md -/

namespace Sys2Proof.Machine

/-! ### Words and steps -/

theorem runCommand_of_reserved {w : Cmd} {op : BitVec 4} (h : decode w = .reserved op) (s : State) :
    runCommand w s = .next s := by
  simp [runCommand, h, runReserved, ignore]

theorem runCommand_of_command {w : Cmd} {i : Instr} (h : decode w = .command i) (s : State) :
    runCommand w s = exec i s := by
  simp [runCommand, h]

theorem exists_decode_reserved_iff (w : Cmd) :
    (∃ op, decode w = .reserved op) ↔ w.toNat / 2 ^ 44 = 0 ∨ 8 ≤ w.toNat / 2 ^ 44 := by
  simp [decode_reserved_iff, opField_toNat]

/-- Settles O3: the reserved words are read off the opcode, and running one is `ignore`. -/
theorem reservedOpcodesAreIgnored : Obligations.ReservedOpcodesAreIgnored := by
  intro w
  refine ⟨exists_decode_reserved_iff w, fun hop s => ?_⟩
  obtain ⟨op, hdecode⟩ := (exists_decode_reserved_iff w).mpr hop
  exact runCommand_of_reserved hdecode s

theorem step_of_command {s : State} {cmd : Cmd} {now : Time} {rest : List HostInput}
    (h : s.inputs = .command cmd now :: rest) : step s = runCommand cmd (sampleInputs now rest s) := by
  simp [step, h]

/-- Settles O33: a presented command samples NOW and is run by its decoding. -/
theorem stepRunsTheDecodedCommand : Obligations.StepRunsTheDecodedCommand := by
  intro cmd now rest s hin
  rw [step_of_command hin]
  exact ⟨fun i hi => runCommand_of_command hi _, fun op hop => runCommand_of_reserved hop _⟩

/-- Presenting a word at the NOW the state holds and taking it again leaves the state as it was (log 12). -/
theorem step_withFetchWord (s : State) (nbits w : Nat) :
    step (s.withFetchWord nbits w) = runCommand (BitVec.ofNat 48 (w % 2 ^ nbits)) s := rfl

theorem decode_of_decodeTableWord {nbits w : Nat} {i : Instr} (h : decodeTableWord nbits w = some i) :
    decode (BitVec.ofNat 48 (w % 2 ^ nbits)) = .command i := by
  unfold decodeTableWord at h
  split at h
  · next j hj => rw [hj, Option.some.inj h]
  · simp at h

/-- Settles O34: the table's reading of a word is the decoder's. -/
theorem fetchedWordRunsNext : Obligations.FetchedWordRunsNext := by
  intro w i s h
  rw [step_withFetchWord, runCommand_of_command (decode_of_decodeTableWord h)]

/-! ### BEGIN -/

theorem exec_beginCmd (s : State) : exec .beginCmd s = .next (emit .portBegin (resetRegisters s)) := rfl

/-- The registers after `resetRegisters` are those of the state after reset (70_reset_and_hazards.md R220, R221). -/
theorem resetRegisters_eq (s : State) :
    resetRegisters s =
      { State.reset with config := s.config, now := s.now, inputs := s.inputs, events := s.events } := rfl

/-- Settles O21: BEGIN resets the registers and then emits PORT_BEGIN. -/
theorem beginResetsTheBlock : Obligations.BeginResetsTheBlock := by
  intro s
  rw [exec_beginCmd, resetRegisters_eq, emit]

/-! ### The commands on a valid channel -/

section
variable {ch : BitVec 4} (h : ch.toNat < 9) (s : State)
include h

theorem exec_noteOn_of_lt (freq : Freq) (level : BitVec 4) (dur : BitVec 16) :
    exec (.noteOn ch freq level dur) s = .next (noteOn ⟨ch.toNat, h⟩ freq level dur s) := by
  simp [exec, execNoteOn, channelIndex_of_lt h]

theorem exec_noteOff_of_idle (hk : (s.channel ⟨ch.toNat, h⟩).key = .idle) : exec (.noteOff ch) s = .next s := by
  simp [exec, execNoteOff, channelIndex_of_lt h, hk, ignore]

theorem exec_noteOff_of_ne_idle (hk : (s.channel ⟨ch.toNat, h⟩).key ≠ .idle) :
    exec (.noteOff ch) s = .next (keyOff ⟨ch.toNat, h⟩ s) := by
  simp [exec, execNoteOff, channelIndex_of_lt h, hk]

theorem exec_setVolume_of_lt (level : BitVec 4) :
    exec (.setVolume ch level) s = .next (writeVolume ⟨ch.toNat, h⟩
      (s.setChannel ⟨ch.toNat, h⟩ { s.channel ⟨ch.toNat, h⟩ with att := level })) := by
  simp [exec, execSetVolume, channelIndex_of_lt h]

theorem exec_setInstrument_of_lt (instr : BitVec 4) (sus : Bool) :
    exec (.setInstrument ch instr sus) s = .next
      (s.setChannel ⟨ch.toNat, h⟩ { s.channel ⟨ch.toNat, h⟩ with instr := instr, sus := sus }) := by
  simp [exec, execSetInstrument, channelIndex_of_lt h]

end

theorem setChannel_onlyChannel (s : State) (ch : Chan) (c : Channel) : OnlyChannel ch c s (s.setChannel ch c) where
  written := channel_setChannel_same s ch c
  others c' h := channel_setChannel_ne s ch c' c h

/-! ### The write of a key bit -/

/-- The write that carries a key bit: its address and byte (42_channel_commands.md R142(b), R144, R146). -/
def keyWrite (s : State) (ch : Chan) (keyOn : Bool) : Addr × Byte :=
  match percRole s ch with
  | some r => (s.config.aRhy, buildRhythmByte s.rhyEn (roleBit r) keyOn (keySnap s))
  | none =>
      (ctlAddr s.config ch,
        buildInstrumentByte (s.channel ch).sus keyOn ((s.channel ch).block.setWidth 8)
          ((s.channel ch).fnum.setWidth 16))

theorem writeKey_eq (ch : Chan) (keyOn : Bool) (s : State) :
    writeKey ch keyOn s = chipWrite (keyWrite s ch keyOn).1 (keyWrite s ch keyOn).2 s := by
  unfold writeKey keyWrite
  cases percRole s ch <;> rfl

theorem writeKey_writes (ch : Chan) (keyOn : Bool) (s : State) :
    ChipWrites [keyWrite s ch keyOn] s (writeKey ch keyOn s) :=
  writeKey_eq ch keyOn s ▸ chipWrite_writes _ _ s

theorem keyWrite_addr (s : State) (ch : Chan) (keyOn : Bool) :
    (keyWrite s ch keyOn).1 = s.config.aRhy ∨ (keyWrite s ch keyOn).1 = ctlAddr s.config ch := by
  unfold keyWrite
  split
  · exact .inl rfl
  · exact .inr rfl

/-- The path is chosen by RHY_EN and the slot (10_state.md R32). -/
theorem keyWrite_eq_dite (s : State) (ch : Chan) (keyOn : Bool) :
    keyWrite s ch keyOn =
      if h4 : s.rhyEn = true ∧ 4 ≤ ch.val then
        (s.config.aRhy,
          buildRhythmByte true (roleBit (s.config.roleOfSlot[ch.val - 4]'(by omega))) keyOn (keySnap s))
      else
        (ctlAddr s.config ch, buildInstrumentByte (s.channel ch).sus keyOn ((s.channel ch).block.setWidth 8)
          ((s.channel ch).fnum.setWidth 16)) := by
  by_cases h4 : s.rhyEn = true ∧ 4 ≤ ch.val
  · simp [keyWrite, percRole_percussion h4.1 h4.2, h4]
  · have hmelodic : s.rhyEn = false ∨ ch.val < 4 := by simpa [imp_iff_not_or] using h4
    rw [dif_neg h4, keyWrite, percRole_melodic hmelodic]

/-! ### NOTE_ON -/

theorem writeVolume_writes (ch : Chan) (s : State) :
    ChipWrites [(volAddr s.config ch, volByte (s.channel ch).instr (s.channel ch).att)] s (writeVolume ch s) :=
  chipWrite_writes _ _ s

theorem noteOn_writes (ch : Chan) (freq : Freq) (level : BitVec 4) (dur : BitVec 16) (s : State) :
    ChipWrites
      [(floAddr s.config ch, floByte (fnumOf s.config.fsam freq)), keyWrite (noteLoaded ch freq level s) ch true,
        (volAddr s.config ch, volByte (s.channel ch).instr level)] s (noteOn ch freq level dur s) := by
  have hvol := writeVolume_writes ch (writeKey ch true (noteLoaded ch freq level s))
  simp only [writeKey_config, writeKey_channel, noteLoaded_config, noteLoaded_channel_same] at hvol
  rw [noteOn_eq]
  exact (noteLoaded_writes ch freq level s).trans <|
    (writeKey_writes ch true _).trans (hvol.trans (startNote_writes ch dur _))

/-- The key write of a NOTE_ON has the loaded block and FNum on the melodic path, and on the percussion path the
snapshot taken before it. -/
theorem keyWrite_noteLoaded (ch : Chan) (freq : Freq) (level : BitVec 4) (s : State) (keyOn : Bool) :
    keyWrite (noteLoaded ch freq level s) ch keyOn =
      if h4 : s.rhyEn = true ∧ 4 ≤ ch.val then
        (s.config.aRhy,
          buildRhythmByte true (roleBit (s.config.roleOfSlot[ch.val - 4]'(by omega))) keyOn (keySnap s))
      else
        (ctlAddr s.config ch, buildInstrumentByte (s.channel ch).sus keyOn ((calcBlock freq).setWidth 8)
          ((fnumOf s.config.fsam freq).setWidth 16)) := by
  simp [keyWrite_eq_dite, noteLoaded_keySnap]

theorem noteOn_onlyChannel (ch : Chan) (freq : Freq) (level : BitVec 4) (dur : BitVec 16) (s : State) :
    OnlyChannel ch ((s.channel ch).noted s freq level dur) s (noteOn ch freq level dur s) where
  written := by rw [noteOn_channel, if_pos rfl]
  others c h := by rw [noteOn_channel, if_neg h]

/-- Settles O22, from the three writes of a NOTE_ON and what it leaves in its channel. -/
theorem noteOnEffect : Obligations.NoteOnEffect := by
  intro ch freq level dur s
  refine ⟨fun hge => exec_noteOn_of_ge hge s freq level dur, fun h => ?_⟩
  have hw := noteOn_writes ⟨ch.toNat, h⟩ freq level dur s
  have hc := noteOn_onlyChannel ⟨ch.toNat, h⟩ freq level dur s
  rw [keyWrite_noteLoaded] at hw
  rw [Channel.noted] at hc
  rw [fnumOf_eq] at hw hc
  exact ⟨_, exec_noteOn_of_lt h s freq level dur, hw, hc, noteOn_rhyEn _ _ _ _ s, (contained_noteOn _ _ _ _ s).host⟩

/-! ### What a NOTE_ON forgets -/

/-- `s` with another key state and deadline in channel `ch`. -/
def rekey (ch : Chan) (key : KeyState) (deadline : Time) (s : State) : State :=
  s.setChannel ch { s.channel ch with key := key, deadline := deadline }

theorem latchAddress_setChannel (a : Addr) (s : State) (ch : Chan) (c : Channel) :
    latchAddress a (s.setChannel ch c) = (latchAddress a s).setChannel ch c := by
  unfold latchAddress
  rw [setChannel_lastValid, setChannel_lastAddr]
  split <;> rfl

theorem chipWrite_setChannel (a : Addr) (d : Byte) (s : State) (ch : Chan) (c : Channel) :
    chipWrite a d (s.setChannel ch c) = (chipWrite a d s).setChannel ch c := by
  rw [chipWrite, latchAddress_setChannel]
  rfl

theorem chipWrite_rekey (a : Addr) (d : Byte) (ch : Chan) (key : KeyState) (deadline : Time) (s : State) :
    chipWrite a d (rekey ch key deadline s) = rekey ch key deadline (chipWrite a d s) := by
  simp [rekey, chipWrite_setChannel]

theorem exists_roleBit {k : Nat} (h : k < 5) : ∃ r, (roleBit r).toNat = k := by
  interval_cases k
  exacts [⟨.hh, rfl⟩, ⟨.cym, rfl⟩, ⟨.tom, rfl⟩, ⟨.sd, rfl⟩, ⟨.bd, rfl⟩]

theorem roleBit_toNat_lt (r : Role) : (roleBit r).toNat < 5 := by cases r <;> decide

/-- The targeted role's own bit of the snapshot does not reach the rhythm byte (41_register_builder.md R125). -/
theorem rhythmKeys_congr {r : Role} {snap snap' : BitVec 5} (keyOn : Bool)
    (h : ∀ r', r' ≠ r → snap.getLsbD (roleBit r').toNat = snap'.getLsbD (roleBit r').toNat) :
    rhythmKeys (roleBit r) keyOn snap = rhythmKeys (roleBit r) keyOn snap' := by
  refine BitVec.eq_of_getLsbD_eq fun k hk => ?_
  obtain ⟨r', rfl⟩ := exists_roleBit hk
  rw [rhythmKeys_getLsbD, rhythmKeys_getLsbD]
  split
  · rfl
  · next hne => exact h r' fun he => hne ⟨roleBit_toNat_lt r, he ▸ rfl⟩

/-- A channel's key state shows in KEYSNAP at its own role's bit only (10_state.md R32). -/
theorem keySnap_rekey_getLsbD {s : State} {ch : Chan} {r : Role} (hr : roleOfChannel s.config ch = some r)
    (key : KeyState) (deadline : Time) {r' : Role} (hne : r' ≠ r) :
    (keySnap (rekey ch key deadline s)).getLsbD (roleBit r').toNat = (keySnap s).getLsbD (roleBit r').toNat := by
  obtain ⟨c, h4, hslot⟩ := exists_slot_of_role s.config r'
  have hc : roleOfChannel s.config c = some r' := by rw [roleOfChannel_of_slot _ h4, hslot]
  have hcch : c ≠ ch := by
    rintro rfl
    exact hne (Option.some.inj (hc.symm.trans hr))
  rw [keySnap_getLsbD hc, keySnap_getLsbD (s := rekey ch key deadline s) hc, rekey, channel_setChannel_ne _ _ _ _ hcch]

theorem roleOfChannel_of_percRole {s : State} {ch : Chan} {r : Role} (h : percRole s ch = some r) :
    roleOfChannel s.config ch = some r := by
  unfold percRole at h
  split at h
  · exact h
  · simp at h

theorem keyWrite_rekey (ch : Chan) (keyOn : Bool) (key : KeyState) (deadline : Time) (s : State) :
    keyWrite (rekey ch key deadline s) ch keyOn = keyWrite s ch keyOn := by
  have hperc : percRole (rekey ch key deadline s) ch = percRole s ch := percRole_congr rfl rfl ch
  unfold keyWrite
  rw [hperc]
  split
  · next r hr =>
      have hkeys := rhythmKeys_congr keyOn fun r' => keySnap_rekey_getLsbD (roleOfChannel_of_percRole hr) key deadline
      rw [buildRhythmByte, hkeys]
      rfl
  · simp [rekey]

section
variable (ch : Chan) (key : KeyState) (deadline : Time) (s : State)

theorem noteLoaded_rekey (freq : Freq) (level : BitVec 4) :
    noteLoaded ch freq level (rekey ch key deadline s) = rekey ch key deadline (noteLoaded ch freq level s) := by
  simp [noteLoaded, loadNote, rekey, chipWrite_setChannel]

theorem writeKey_rekey (keyOn : Bool) :
    writeKey ch keyOn (rekey ch key deadline s) = rekey ch key deadline (writeKey ch keyOn s) := by
  rw [writeKey_eq, keyWrite_rekey, chipWrite_rekey, ← writeKey_eq]

theorem writeVolume_rekey :
    writeVolume ch (rekey ch key deadline s) = rekey ch key deadline (writeVolume ch s) := by
  simp [writeVolume, rekey, chipWrite_setChannel]

theorem startNote_rekey (dur : BitVec 16) : startNote ch dur (rekey ch key deadline s) = startNote ch dur s := by
  simp [startNote, rekey]

end

theorem noteOn_rekey (ch : Chan) (freq : Freq) (level : BitVec 4) (dur : BitVec 16) (key : KeyState) (deadline : Time)
    (s : State) : noteOn ch freq level dur (rekey ch key deadline s) = noteOn ch freq level dur s := by
  rw [noteOn_eq, noteOn_eq, noteLoaded_rekey, writeKey_rekey, writeVolume_rekey, startNote_rekey]

/-- Settles O23: the earlier key state and deadline pass through every part of NOTE_ON, and the last part replaces
them. -/
theorem noteOnForgetsThePreviousNote : Obligations.NoteOnForgetsThePreviousNote := by
  intro ch freq level dur s h key deadline
  dsimp only
  rw [exec_noteOn_of_lt h, exec_noteOn_of_lt h]
  exact congrArg _ (noteOn_rekey ⟨ch.toNat, h⟩ freq level dur key deadline s)

/-! ### NOTE_OFF -/

theorem keyOff_writes_keyWrite (ch : Chan) (s : State) : ChipWrites [keyWrite s ch false] s (keyOff ch s) :=
  keyOff_writes (writeKey_eq ch false s)

theorem keyOff_onlyChannel (ch : Chan) (s : State) : OnlyChannel ch (s.channel ch).released s (keyOff ch s) where
  written := by rw [keyOff_channel, if_pos rfl]
  others c h := by rw [keyOff_channel, if_neg h]

/-- Settles O25: on a keyed channel NOTE_OFF is one key-off. -/
theorem noteOffEffect : Obligations.NoteOffEffect := by
  intro ch s
  refine ⟨fun hge => exec_noteOff_of_ge hge s, fun h => ⟨exec_noteOff_of_idle h s, fun hk => ?_⟩⟩
  have hw := keyOff_writes_keyWrite ⟨ch.toNat, h⟩ s
  rw [keyWrite_eq_dite] at hw
  exact ⟨_, exec_noteOff_of_ne_idle h s hk, hw, keyOff_onlyChannel _ s, keyOff_rhyEn _ s, (contained_keyOff _ s).host⟩

/-! ### TICK -/

theorem releasedBelow_channel (s : State) (ch c : Chan) :
    (releasedBelow s ch).channel c =
      if due s c = true ∧ c < ch then (s.channel c).released else s.channel c := by
  simp [releasedBelow, State.channel]

/-- A release's write is the key-off write of the registers as the earlier releases leave them. -/
theorem keyWrite_eq_releaseWrite {s t : State} {ch : Chan} (hc : t.config = s.config) (hr : t.rhyEn = s.rhyEn)
    (hch : ∀ c, t.channel c = (releasedBelow s ch).channel c) : keyWrite t ch false = releaseWrite s ch := by
  have hsame : t.channel ch = s.channel ch := by simp [hch, releasedBelow_channel]
  have hsnap : keySnap t = keySnap (releasedBelow s ch) := keySnap_congr hc fun c => by rw [hch]
  unfold keyWrite releaseWrite
  rw [percRole_congr hc hr, hsame, hsnap, hc, hr]
  rfl

theorem tickChannel_of_not_due {s : State} {ch : Chan} (h : due s ch = false) : tickChannel s ch = s := by
  simp [tickChannel, expired_eq_due, h]

theorem tickChannel_writes (s : State) (ch : Chan) :
    ChipWrites (if due s ch then [keyWrite s ch false] else []) s (tickChannel s ch) := by
  rw [tickChannel, expired_eq_due]
  split
  · exact keyOff_writes_keyWrite ch s
  · exact .refl s

/-- The channels that TICK visits before `ch` are those below it (42_channel_commands.md R150(c)). -/
theorem mem_iff_lt_of_prefix {l : List Chan} {ch : Chan} (h : l ++ [ch] <+: allChannels) (c : Chan) :
    c ∈ l ↔ c < ch := by
  obtain ⟨rest, hall⟩ := h
  have hsorted := hall ▸ allChannels_sorted
  have hmem : c ∈ l ++ [ch] ++ rest := hall ▸ mem_allChannels c
  simp only [List.append_assoc, List.singleton_append, List.pairwise_append, List.pairwise_cons] at hsorted
  obtain ⟨-, ⟨hrest, -⟩, hl⟩ := hsorted
  constructor
  · exact fun hc => hl c hc ch (by simp)
  · intro hlt
    simp only [List.append_assoc, List.mem_append, List.mem_singleton] at hmem
    rcases hmem with hc | rfl | hc
    · exact hc
    · exact absurd hlt (lt_irrefl c)
    · exact absurd hlt (lt_asymm (hrest c hc))

/-- TICK's writes, channel by channel along the ascending order (42_channel_commands.md R149, R150(c)). -/
theorem tick_writes_of_prefix (s : State) {l : List Chan} (h : l <+: allChannels) :
    ChipWrites ((l.filter (due s)).map (releaseWrite s)) s (l.foldl tickChannel s) := by
  induction l using List.reverseRecOn with
  | nil => exact .refl s
  | append_singleton l ch ih =>
      have hbelow := mem_iff_lt_of_prefix h
      have hhost := (contained_tick l s).host
      have hchan : ∀ c, (l.foldl tickChannel s).channel c = (releasedBelow s ch).channel c := fun c => by
        simp only [tick_channel, releasedBelow_channel, hbelow, and_comm]
      have hdue : due (l.foldl tickChannel s) ch = due s ch :=
        due_congr hhost.now (by simp [hchan, releasedBelow_channel])
      have hlast := tickChannel_writes (l.foldl tickChannel s) ch
      rw [hdue, keyWrite_eq_releaseWrite hhost.config (tick_rhyEn l s) hchan] at hlast
      rw [List.filter_append, List.map_append, List.foldl_append]
      refine (ih ((List.prefix_append l [ch]).trans h)).trans ?_
      cases hd : due s ch <;> simpa [hd] using hlast

theorem tick_writes (s : State) : ChipWrites (releaseWrites s) s (allChannels.foldl tickChannel s) :=
  tick_writes_of_prefix s (List.prefix_refl allChannels)

theorem exec_tick (s : State) : exec .tick s = .next (allChannels.foldl tickChannel s) := rfl

/-- Every channel after a whole TICK (42_channel_commands.md R149). -/
theorem tick_allChannels_channel (s : State) (ch : Chan) :
    (allChannels.foldl tickChannel s).channel ch = if due s ch then (s.channel ch).released else s.channel ch := by
  simp [tick_channel, mem_allChannels]

theorem due_iff {s : State} {ch : Chan} :
    due s ch = true ↔ (s.channel ch).key = .soundingTimed ∧ (s.channel ch).deadline.toNat ≤ s.now.toNat :=
  decide_eq_true_iff

/-- Settles O26, from TICK's fold over the channels. -/
theorem tickReleasesTheDueNotes : Obligations.TickReleasesTheDueNotes := by
  intro s
  refine ⟨_, exec_tick s, tick_writes s, fun ch => ?_, tick_rhyEn _ s, (contained_tick _ s).host⟩
  rw [tick_allChannels_channel]
  simp only [due_iff]
  rfl

theorem tick_of_none_due {s : State} {l : List Chan} (h : ∀ ch ∈ l, due s ch = false) : l.foldl tickChannel s = s := by
  induction l with
  | nil => rfl
  | cons ch l ih =>
      obtain ⟨hch, hl⟩ := List.forall_mem_cons.mp h
      rw [List.foldl_cons, tickChannel_of_not_due hch, ih hl]

/-- Settles O27: a TICK leaves each channel that is not due alone. -/
theorem tickWithNothingDueDoesNothing : Obligations.TickWithNothingDueDoesNothing := by
  intro s h
  rw [exec_tick, tick_of_none_due fun ch _ => ?_]
  rw [Bool.eq_false_iff, ne_eq, due_iff]
  exact fun ⟨hk, hle⟩ => absurd (h ch hk) (Nat.not_lt.mpr hle)

theorem due_of_released {s : State} {ch : Chan} {c : Channel} (h : s.channel ch = c.released) : due s ch = false := by
  simp [due, h, Channel.released]

theorem tick_not_due (s : State) (ch : Chan) : due (allChannels.foldl tickChannel s) ch = false := by
  have hch := tick_allChannels_channel s ch
  split at hch
  · exact due_of_released hch
  · next hd => exact (due_congr (contained_tick _ s).host.now hch).trans (Bool.eq_false_iff.mpr hd)

/-- Settles O28: after a TICK no channel is due at that time, and a released channel is due at none. -/
theorem tickIsIdempotent : Obligations.TickIsIdempotent := by
  intro s t h
  obtain rfl := Host.Outcome.next.inj h
  refine ⟨by rw [exec_tick, tick_of_none_due fun ch _ => tick_not_due s ch], fun ch hk hle now rest u hu => ?_⟩
  obtain rfl := Host.Outcome.next.inj hu
  have hreleased := tick_allChannels_channel s ch
  rw [if_pos (due_iff.mpr ⟨hk, hle⟩)] at hreleased
  have hdone : due (sampleInputs now rest (allChannels.foldl tickChannel s)) ch = false :=
    due_of_released (by rw [sampleInputs_channel, hreleased])
  simp only [tick_allChannels_channel _ ch, hdone, sampleInputs_channel, Bool.false_eq_true, if_false]

/-- Settles O29: the note's channel holds the wrapped deadline, and a TICK compares it with its own time. -/
theorem timedReleaseRoundTrip : Obligations.TimedReleaseRoundTrip := by
  intro ch freq level dur s t u h now rest hdur ht hu
  rw [exec_noteOn_of_lt h] at ht
  obtain rfl := Host.Outcome.next.inj ht
  obtain rfl := Host.Outcome.next.inj hu
  have hnote : (noteOn ⟨ch.toNat, h⟩ freq level dur s).channel ⟨ch.toNat, h⟩ =
      (s.channel ⟨ch.toNat, h⟩).noted s freq level dur := (noteOn_onlyChannel _ freq level dur s).written
  dsimp only
  rw [tick_allChannels_channel]
  simp only [due_iff, sampleInputs_channel, sampleInputs_now, hnote, Channel.noted, gt_iff_lt, hdur, if_true,
    BitVec.toNat_ofNat, true_and]
  split
  · next hle => simp [Channel.released, hle]
  · next hlt => simp [hlt, Nat.lt_of_not_le hlt]

/-! ### SET_VOLUME, SET_RHYTHM and SET_INSTRUMENT -/

theorem setVolume_writes (ch : Chan) (level : BitVec 4) (s : State) :
    ChipWrites [(volAddr s.config ch, volByte (s.channel ch).instr level)] s
      (writeVolume ch (s.setChannel ch { s.channel ch with att := level })) := by
  have hset : ChipWrites [] s (s.setChannel ch { s.channel ch with att := level }) := .none_of_port rfl rfl rfl rfl
  have hvol := writeVolume_writes ch (s.setChannel ch { s.channel ch with att := level })
  rw [channel_setChannel_same] at hvol
  exact hset.trans hvol

/-- Settles O30: SET_VOLUME stores the attenuation and writes the volume register from it. -/
theorem setVolumeEffect : Obligations.SetVolumeEffect := by
  intro ch level s
  refine ⟨fun hge => exec_setVolume_of_ge hge s level, fun h => ?_⟩
  have hset := setChannel_onlyChannel s ⟨ch.toNat, h⟩ { s.channel ⟨ch.toNat, h⟩ with att := level }
  refine ⟨_, exec_setVolume_of_lt h s level, setVolume_writes ⟨ch.toNat, h⟩ level s, ⟨?_, fun c hc => ?_⟩,
    writeVolume_rhyEn _ _, ((contained_setChannel s _ _).trans (contained_writeVolume _ _)).host⟩
  · rw [writeVolume_channel, hset.written]
  · rw [writeVolume_channel, hset.others c hc]

theorem keySnap_rhyEn (s : State) (en : Bool) : keySnap { s with rhyEn := en } = keySnap s :=
  keySnap_congr rfl fun _ => rfl

/-- With no role targeted the rhythm byte is the enable bit over the snapshot (42_channel_commands.md R152). -/
theorem buildRhythmByte_undefinedRole (enable keyOn : Bool) (snap : BitVec 5) :
    buildRhythmByte enable undefinedRole keyOn snap = BitVec.ofNat 8 (enable.toNat * 32 + snap.toNat) := by
  have hkeys : rhythmKeys undefinedRole keyOn snap = snap := if_pos (by decide)
  have hsnap := snap.isLt
  have hen := enable.toNat_lt
  apply BitVec.eq_of_toNat_eq
  simp only [buildRhythmByte, hkeys, toNat_append_eq_add, BitVec.toNat_ofBool, BitVec.toNat_ofNat]
  omega

/-- The state a SET_RHYTHM answers (42_channel_commands.md R152). -/
def rhythmSet (en : Bool) (s : State) : State :=
  chipWrite s.config.aRhy (BitVec.ofNat 8 (en.toNat * 32 + (keySnap s).toNat)) { s with rhyEn := en }

theorem exec_setRhythm (en : Bool) (s : State) : exec (.setRhythm en) s = .next (rhythmSet en s) := by
  simp only [exec, execSetRhythm, buildRhythmByte_undefinedRole, keySnap_rhyEn, rhythmSet]

theorem rhythmSet_writes (en : Bool) (s : State) :
    ChipWrites [(s.config.aRhy, BitVec.ofNat 8 (en.toNat * 32 + (keySnap s).toNat))] s (rhythmSet en s) := by
  have hen : ChipWrites [] s { s with rhyEn := en } := .none_of_port rfl rfl rfl rfl
  exact hen.trans (chipWrite_writes _ _ _)

@[simp] theorem rhythmSet_channel (en : Bool) (s : State) (ch : Chan) : (rhythmSet en s).channel ch = s.channel ch :=
  chipWrite_channel _ _ _ ch

@[simp] theorem rhythmSet_rhyEn (en : Bool) (s : State) : (rhythmSet en s).rhyEn = en := chipWrite_rhyEn _ _ _

@[simp] theorem rhythmSet_config (en : Bool) (s : State) : (rhythmSet en s).config = s.config := chipWrite_config _ _ _

/-- Settles O31: SET_RHYTHM stores RHY_EN and makes one write with no role targeted. -/
theorem setRhythmEffect : Obligations.SetRhythmEffect := fun en s =>
  ⟨_, exec_setRhythm en s, rhythmSet_writes en s, rhythmSet_channel en s, rhythmSet_rhyEn en s,
    ((contained_rhyEn s en).trans (contained_chipWrite _ (rhyAddr_mem _))).host⟩

/-- Settles O32: SET_INSTRUMENT replaces one channel's registers and nothing else. -/
theorem setInstrumentEffect : Obligations.SetInstrumentEffect := by
  intro ch instr sus s
  refine ⟨fun hge => exec_setInstrument_of_ge hge s instr sus, fun h => ?_⟩
  exact ⟨_, exec_setInstrument_of_lt h s instr sus, setChannel_onlyChannel s _ _, rfl, rfl, rfl, fun _ => rfl, rfl,
    (contained_setChannel s _ _).host⟩

/-! ### The latched address -/

/-- No address stands in two of the four banks of the register map. -/
structure BanksApart (c : Config) : Prop where
  rhy_ne_flo : ∀ ch, c.aRhy ≠ floAddr c ch
  rhy_ne_ctl : ∀ ch, c.aRhy ≠ ctlAddr c ch
  rhy_ne_vol : ∀ ch, c.aRhy ≠ volAddr c ch
  ctl_ne_flo : ∀ ch ch', ctlAddr c ch ≠ floAddr c ch'
  vol_ne_flo : ∀ ch ch', volAddr c ch ≠ floAddr c ch'
  ctl_ne_vol : ∀ ch ch', ctlAddr c ch ≠ volAddr c ch'

theorem banksApart {c : Config} (h : AddressesDistinct c) : BanksApart c := by
  obtain ⟨hrhy, hbanks⟩ := List.nodup_cons.mp h
  obtain ⟨hfloctl, -, hvol⟩ := List.nodup_append.mp hbanks
  obtain ⟨-, -, hctl⟩ := List.nodup_append.mp hfloctl
  have mem {f : Chan → Addr} (ch : Chan) : f ch ∈ allChannels.map f := List.mem_map_of_mem (mem_allChannels ch)
  simp only [List.mem_append, not_or] at hrhy hvol
  obtain ⟨⟨hrhyflo, hrhyctl⟩, hrhyvol⟩ := hrhy
  exact
    { rhy_ne_flo := fun ch e => hrhyflo (e ▸ mem ch)
      rhy_ne_ctl := fun ch e => hrhyctl (e ▸ mem ch)
      rhy_ne_vol := fun ch e => hrhyvol (e ▸ mem ch)
      ctl_ne_flo := fun ch ch' => (hctl _ (mem ch') _ (mem ch)).symm
      vol_ne_flo := fun ch ch' => (hvol _ (.inl (mem ch')) _ (mem ch)).symm
      ctl_ne_vol := fun ch ch' => hvol _ (.inr (mem ch)) _ (mem ch') }

theorem BanksApart.keyWrite_ne_flo {s : State} (h : BanksApart s.config) (ch : Chan) (keyOn : Bool) (ch' : Chan) :
    (keyWrite s ch keyOn).1 ≠ floAddr s.config ch' := by
  rcases keyWrite_addr s ch keyOn with hk | hk <;> rw [hk]
  · exact h.rhy_ne_flo ch'
  · exact h.ctl_ne_flo ch ch'

theorem BanksApart.keyWrite_ne_vol {s : State} (h : BanksApart s.config) (ch : Chan) (keyOn : Bool) (ch' : Chan) :
    (keyWrite s ch keyOn).1 ≠ volAddr s.config ch' := by
  rcases keyWrite_addr s ch keyOn with hk | hk <;> rw [hk]
  · exact h.rhy_ne_vol ch'
  · exact h.ctl_ne_vol ch ch'

theorem latchNotFlo_chipWrite {s : State} {a : Addr} (d : Byte) (h : ∀ ch, a ≠ floAddr s.config ch) :
    LatchNotFlo (chipWrite a d s) := by
  intro _ ch
  rw [chipWrite_lastAddr, chipWrite_config]
  exact h ch

theorem LatchNotFlo.setChannel {s : State} (h : LatchNotFlo s) (ch : Chan) (c : Channel) :
    LatchNotFlo (s.setChannel ch c) := h

theorem LatchNotFlo.startNote {s : State} (h : LatchNotFlo s) (ch : Chan) (dur : BitVec 16) :
    LatchNotFlo (startNote ch dur s) := by
  unfold Machine.startNote
  split <;> exact h.setChannel _ _

theorem latchNotFlo_writeVolume {s : State} (h : BanksApart s.config) (ch : Chan) : LatchNotFlo (writeVolume ch s) :=
  latchNotFlo_chipWrite _ (h.vol_ne_flo ch)

theorem latchNotFlo_keyOff {s : State} (h : BanksApart s.config) (ch : Chan) : LatchNotFlo (keyOff ch s) := by
  rw [keyOff, writeKey_eq]
  exact (latchNotFlo_chipWrite _ (h.keyWrite_ne_flo ch false)).setChannel _ _

theorem latchNotFlo_tick {s : State} (h : BanksApart s.config) (hs : LatchNotFlo s) (l : List Chan) :
    LatchNotFlo (l.foldl tickChannel s) := by
  induction l generalizing s with
  | nil => exact hs
  | cons ch l ih =>
      refine ih ((contained_tickChannel s ch).host.config ▸ h) ?_
      unfold tickChannel
      split
      · exact latchNotFlo_keyOff h ch
      · exact hs

/-- NOTE_ON alone writes an FNum-low register, and it goes on to the volume register. -/
theorem exec_latchNotFlo {i : Instr} {s t : State} (h : BanksApart s.config) (hs : LatchNotFlo s)
    (ht : exec i s = .next t) : LatchNotFlo t := by
  cases exec_answers ht with
  | ignored => exact hs
  | beginCmd => exact fun hv => absurd hv Bool.false_ne_true
  | noteOn c freq level dur =>
      rw [noteOn_eq]
      exact (latchNotFlo_writeVolume (by simpa using h) c).startNote c dur
  | noteOff c => exact latchNotFlo_keyOff h c
  | tick => exact latchNotFlo_tick h hs allChannels
  | setVolume c => exact latchNotFlo_writeVolume (s := s.setChannel _ _) h c
  | setRhythm en => exact latchNotFlo_chipWrite (s := { s with rhyEn := en }) _ h.rhy_ne_flo
  | setInstrument c => exact hs.setChannel _ _

/-- Settles O43: the last address each command writes lies outside the FNum-low bank. -/
theorem floAddressIsNeverLeftLatched : Obligations.FloAddressIsNeverLeftLatched := by
  intro s t hd hs h
  rcases step_inv h with ⟨-, rfl⟩ | ⟨cmd, now, rest, -, ⟨i, -, hi⟩ | ⟨op, -, rfl⟩⟩ | ⟨rest, -, rfl⟩
  · exact hs
  · exact exec_latchNotFlo (s := sampleInputs now rest s) (banksApart hd) hs hi
  · exact hs
  · exact fun hv => absurd hv Bool.false_ne_true

/-! ### Event counts -/

@[simp] theorem writeEvents_countP_isData (l : Option Addr) (ws : List (Addr × Byte)) :
    (writeEvents l ws).countP PortEvent.isData = ws.length := by
  induction ws generalizing l with
  | nil => rfl
  | cons w ws ih =>
      rw [writeEvents, List.countP_append, ih]
      split <;> simp [PortEvent.isData, Nat.add_comm]

theorem writeEvents_singleton_length (l : Option Addr) (w : Addr × Byte) :
    (writeEvents l [w]).length = 1 ∨ (writeEvents l [w]).length = 2 := by
  rw [writeEvents, List.length_append]
  split
  · exact .inl rfl
  · exact .inr rfl

theorem writeEvents_length_le (l : Option Addr) (ws : List (Addr × Byte)) :
    (writeEvents l ws).length ≤ 2 * ws.length := by
  induction ws generalizing l with
  | nil => exact Nat.le_refl 0
  | cons w ws ih =>
      obtain ⟨a, d⟩ := w
      have hfirst := writeEvents_singleton_length l (a, d)
      have hrest := ih (some a)
      rw [writeEvents_cons, List.length_append, List.length_cons]
      omega

theorem ChipWrites.emitted_eq {ws : List (Addr × Byte)} {s t : State} (h : ChipWrites ws s t) :
    emitted s t = writeEvents (Machine.latched s) ws := emitted_of_append h.events

theorem ChipWrites.counts_of_singleton {w : Addr × Byte} {s t : State} (h : ChipWrites [w] s t) :
    ((emitted s t).length = 1 ∨ (emitted s t).length = 2) ∧ (emitted s t).countP PortEvent.isData = 1 := by
  rw [h.emitted_eq]
  exact ⟨writeEvents_singleton_length _ w, writeEvents_countP_isData _ _⟩

theorem latched_ne_floAddr {s : State} (h : LatchNotFlo s) (ch : Chan) : latched s ≠ some (floAddr s.config ch) := by
  rw [ne_eq, latched_eq_some]
  exact fun ⟨hv, ha⟩ => h hv ch ha

/-- No two neighbouring addresses of a NOTE_ON coincide, so each write sends its address (42_channel_commands.md
R156). -/
theorem noteOn_counts {s : State} (h : BanksApart s.config) (hs : LatchNotFlo s) (ch : Chan) (freq : Freq)
    (level : BitVec 4) (dur : BitVec 16) :
    (emitted s (noteOn ch freq level dur s)).length = 6 ∧
      (emitted s (noteOn ch freq level dur s)).countP PortEvent.isData = 3 := by
  have hb : BanksApart (noteLoaded ch freq level s).config := by rwa [noteLoaded_config]
  have hkf := hb.keyWrite_ne_flo ch true ch
  have hkv := hb.keyWrite_ne_vol ch true ch
  rw [noteLoaded_config] at hkf hkv
  rw [(noteOn_writes ch freq level dur s).emitted_eq]
  refine ⟨?_, writeEvents_countP_isData _ _⟩
  simp [writeEvents, latched_ne_floAddr hs ch, hkf.symm, hkv]

theorem tick_counts (s : State) :
    (emitted s (allChannels.foldl tickChannel s)).length ≤ 18 ∧
      (emitted s (allChannels.foldl tickChannel s)).countP PortEvent.isData = (allChannels.filter (due s)).length := by
  have hlen : (releaseWrites s).length = (allChannels.filter (due s)).length := List.length_map _
  have hle : (allChannels.filter (due s)).length ≤ 9 := List.length_filter_le _ _
  have hevents := writeEvents_length_le (latched s) (releaseWrites s)
  rw [(tick_writes s).emitted_eq, writeEvents_countP_isData]
  exact ⟨by omega, hlen⟩

theorem emitted_setInstrument {ch instr : BitVec 4} {sus : Bool} {s t : State}
    (h : exec (.setInstrument ch instr sus) s = .next t) : emitted s t = [] := by
  cases exec_answers h with
  | ignored => exact emitted_of_append (List.append_nil _).symm
  | setInstrument => exact emitted_of_append (List.append_nil _).symm

/-- Settles O44, from the list of writes of each command. -/
theorem portEventCounts : Obligations.PortEventCounts := by
  intro s hd hs
  refine ⟨fun t ht => ?_, fun ch freq level dur t h ht => ?_, fun ch h t hk ht => ?_, fun t ht => ?_,
    fun ch level t h ht => ?_, fun en t ht => ?_, fun ch instr sus t ht => emitted_setInstrument ht⟩
  · obtain rfl := Host.Outcome.next.inj ht
    exact emitted_of_append rfl
  · rw [exec_noteOn_of_lt h] at ht
    obtain rfl := Host.Outcome.next.inj ht
    exact noteOn_counts (banksApart hd) hs _ freq level dur
  · rw [exec_noteOff_of_ne_idle h s hk] at ht
    obtain rfl := Host.Outcome.next.inj ht
    exact (keyOff_writes_keyWrite _ s).counts_of_singleton
  · obtain rfl := Host.Outcome.next.inj ht
    exact tick_counts s
  · rw [exec_setVolume_of_lt h] at ht
    obtain rfl := Host.Outcome.next.inj ht
    exact (setVolume_writes _ level s).counts_of_singleton
  · rw [exec_setRhythm] at ht
    obtain rfl := Host.Outcome.next.inj ht
    exact (rhythmSet_writes en s).counts_of_singleton

/-! ### Rhythm mode turned off under a percussion note -/

/-- SET_RHYTHM leaves the snapshot in the rhythm register, a role's key bit included (42_channel_commands.md R152). -/
theorem rhythmSet_keyBit (en : Bool) (s : State) (r : Role) :
    ∃ d, (rhythmSet en s).shadow.read s.config.aRhy.toNat = some d ∧
      d.getLsbD (roleBit r).toNat = (keySnap s).getLsbD (roleBit r).toNat := by
  refine ⟨_, by rw [rhythmSet, chipWrite_shadow, Memory.read_write_same], ?_⟩
  have hr := roleBit_toNat_lt r
  have hcode : ¬ undefinedRole.toNat < 5 := by decide
  rw [← buildRhythmByte_undefinedRole en false, rhythmByteFields, if_neg hr.ne, if_neg hr.not_gt,
    if_neg fun hc => hcode hc.1]

/-- A key-off on the melodic path leaves the rhythm register as it is (42_channel_commands.md R155). -/
theorem keyOff_shadow_rhy {s : State} (h : BanksApart s.config) (hr : s.rhyEn = false) (ch : Chan) :
    (keyOff ch s).shadow.read s.config.aRhy.toNat = s.shadow.read s.config.aRhy.toNat := by
  have hne : (ctlAddr s.config ch).toNat ≠ s.config.aRhy.toNat := fun e =>
    h.rhy_ne_ctl ch (BitVec.eq_of_toNat_eq e).symm
  rw [(keyOff_writes_keyWrite ch s).shadow, keyWrite, percRole_melodic (.inl hr)]
  simp [lastWrite, hne]

/-- Settles O47: SET_RHYTHM writes the note's key bit as set, and the key-off that follows writes the control register
instead. -/
theorem togglingRhythmStrandsAKeyBit : Obligations.TogglingRhythmStrandsAKeyBit := by
  intro ch s t u h h4 hd hk ht hu
  rw [exec_setRhythm] at ht
  obtain rfl := Host.Outcome.next.inj ht
  rw [exec_noteOff_of_ne_idle h _ (by rwa [rhythmSet_channel])] at hu
  obtain rfl := Host.Outcome.next.inj hu
  refine ⟨by rw [(keyOff_onlyChannel _ _).written]; rfl, ?_⟩
  obtain ⟨d, hread, hbit⟩ := rhythmSet_keyBit false s (s.config.roleOfSlot[ch.toNat - 4]'(by omega))
  have hkept := keyOff_shadow_rhy (s := rhythmSet false s) (by simpa using banksApart hd) (rhythmSet_rhyEn false s)
    ⟨ch.toNat, h⟩
  rw [rhythmSet_config] at hkept
  refine ⟨d, hkept.trans hread, ?_⟩
  rw [hbit, keySnap_getLsbD (roleOfChannel_of_slot s.config (ch := ⟨ch.toNat, h⟩) h4), keyed_eq_decide]
  exact decide_eq_true hk

end Sys2Proof.Machine

/-! ## The write sequencer, 43_write_sequencer.md -/

namespace Sys2Proof.Machine

/-! ### Skipped address phases at the chip -/

/-- One write sent with its address phase: the chip's latch and register follow whatever it held (43_write_sequencer.md
R185). -/
theorem receive_uncached_write (v : ChipView) (a : Addr) (d : Byte) :
    [.addr a, .data d].foldl ChipView.receive v = { latch := some a, regs := v.regs.write a.toNat d } := rfl

theorem uncachedEvents_cons (a : Addr) (d : Byte) (ws : List (Addr × Byte)) :
    uncachedEvents ((a, d) :: ws) = [.addr a, .data d] ++ uncachedEvents ws := rfl

/-- After its first write a row's cache and the chip's latch agree on that write's address, so the rest of the row is
the same claim again. -/
theorem receive_writeEvents_eq_uncachedEvents {l : Option Addr} {v : ChipView} (ws : List (Addr × Byte))
    (hl : ∀ a, l = some a → v.latch = some a) :
    (writeEvents l ws).foldl ChipView.receive v = (uncachedEvents ws).foldl ChipView.receive v := by
  induction ws generalizing l v with
  | nil => rfl
  | cons w ws ih =>
      obtain ⟨a, d⟩ := w
      rw [writeEvents_cons, uncachedEvents_cons, List.foldl_append, List.foldl_append, receive_write d (hl a),
        receive_uncached_write]
      exact ih fun _ h => h

/-- Settles O20, by induction on the row of writes whose events the block emits. -/
theorem skippedAddressPhasesAreInvisible : Obligations.SkippedAddressPhasesAreInvisible := by
  intro v s ws hl
  rw [(chipWrite_foldl_writes ws s).emitted_eq]
  exact receive_writeEvents_eq_uncachedEvents ws hl

/-! ### The events of one ChipWrite -/

theorem chipWrite_events_of_latched {a : Addr} {s : State} (h : latched s = some a) (d : Byte) :
    (chipWrite a d s).events = s.events ++ [.data d] := by
  simp [chipWrite_events, writeEvents, h]

theorem chipWrite_events_of_not_latched {a : Addr} {s : State} (h : latched s ≠ some a) (d : Byte) :
    (chipWrite a d s).events = s.events ++ [.addr a, .data d] := by
  simp [chipWrite_events, writeEvents, h]

/-- The comparison is with the single most recent address (43_write_sequencer.md R182). -/
@[simp] theorem latched_chipWrite (a : Addr) (d : Byte) (s : State) : latched (chipWrite a d s) = some a := by
  rw [latched_of_valid (chipWrite_lastValid a d s), chipWrite_lastAddr]

theorem chipWrite_sameHost (a : Addr) (d : Byte) (s : State) : SameHost s (chipWrite a d s) where
  config := chipWrite_config a d s
  now := chipWrite_now a d s
  inputs := chipWrite_inputs a d s

/-- Settles O17, from the rule of ChipWrite for each field of the state. -/
theorem chipWriteEffect : Obligations.ChipWriteEffect := by
  intro a d s
  have hshadow := chipWrite_shadow a d s
  refine ⟨fun h => ?_, fun h => ?_, chipWrite_lastValid a d s, chipWrite_lastAddr a d s, ?_, fun b hb => ?_,
    chipWrite_channel a d s, chipWrite_rhyEn a d s, chipWrite_sameHost a d s⟩
  · exact chipWrite_events_of_latched (latched_eq_some.mpr h) d
  · exact chipWrite_events_of_not_latched (mt latched_eq_some.mp h) d
  · rw [hshadow, Memory.read_write_same]
  · rw [hshadow, Memory.read_write_ne _ _ _ _ hb]

/-- Settles O18: the second write replaces the cached address, so neither it nor the third finds its own. -/
theorem alternatingWritesSendEveryAddress : Obligations.AlternatingWritesSendEveryAddress := by
  intro a b d e f s hab hs
  have hb : latched (chipWrite a d s) ≠ some b := by simpa using hab
  have ha : latched (chipWrite b e (chipWrite a d s)) ≠ some a := by simpa using hab.symm
  apply emitted_of_append
  rw [chipWrite_events_of_not_latched ha, chipWrite_events_of_not_latched hb, chipWrite_events_of_not_latched hs]
  simp

/-- Settles O19: the first write leaves its address cached. -/
theorem repeatedWriteStillSendsData : Obligations.RepeatedWriteStillSendsData := by
  intro a d s
  exact chipWrite_events_of_latched (latched_chipWrite a d s) d

end Sys2Proof.Machine

/-! ## Exceptions, 60_exceptions.md -/

namespace Sys2Proof.Machine

/-! ### Every command completes -/

/-- The block raises no exception (60_exceptions.md R200): a command runs to completion from every state. -/
theorem exec_completes (i : Instr) (s : State) : ∃ t, exec i s = .next t := by
  cases i with
  | beginCmd => exact ⟨_, exec_beginCmd s⟩
  | noteOn ch freq level dur =>
      rcases Nat.lt_or_ge ch.toNat 9 with h | h
      · exact ⟨_, exec_noteOn_of_lt h s freq level dur⟩
      · exact ⟨_, exec_noteOn_of_ge h s freq level dur⟩
  | noteOff ch =>
      rcases Nat.lt_or_ge ch.toNat 9 with h | h
      · by_cases hk : (s.channel ⟨ch.toNat, h⟩).key = .idle
        · exact ⟨_, exec_noteOff_of_idle h s hk⟩
        · exact ⟨_, exec_noteOff_of_ne_idle h s hk⟩
      · exact ⟨_, exec_noteOff_of_ge h s⟩
  | tick => exact ⟨_, exec_tick s⟩
  | setVolume ch level =>
      rcases Nat.lt_or_ge ch.toNat 9 with h | h
      · exact ⟨_, exec_setVolume_of_lt h s level⟩
      · exact ⟨_, exec_setVolume_of_ge h s level⟩
  | setRhythm en => exact ⟨_, exec_setRhythm en s⟩
  | setInstrument ch instr sus =>
      rcases Nat.lt_or_ge ch.toNat 9 with h | h
      · exact ⟨_, exec_setInstrument_of_lt h s instr sus⟩
      · exact ⟨_, exec_setInstrument_of_ge h s instr sus⟩

/-- Every word has an effect, which may be to do nothing (30_encoding.md R80). -/
theorem runCommand_completes (cmd : Cmd) (s : State) : ∃ t, runCommand cmd s = .next t := by
  cases hd : decode cmd with
  | command i => rw [runCommand_of_command hd]; exact exec_completes i s
  | reserved op => exact ⟨s, runCommand_of_reserved hd s⟩

theorem step_of_overlapped {s : State} {cmd : Cmd} {now : Time} {rest : List HostInput}
    (h : s.inputs = .overlapped cmd now :: rest) : step s = .refused .overlappedCommand := by
  simp [step, h, refuseOverlap]

theorem step_of_hardwareReset {s : State} {rest : List HostInput} (h : s.inputs = .hardwareReset :: rest) :
    step s = .next (resetRegisters { s with inputs := rest }) := by
  simp [step, h, takeReset]

/-- Settles O37, by cases on what the host presents next. -/
theorem onlyOverlapIsRefused : Obligations.OnlyOverlapIsRefused := by
  intro s
  refine ⟨fun _ _ _ => step_of_overlapped, fun hno => ?_⟩
  match hin : s.inputs with
  | [] => exact ⟨s, nothingPresentedNothingMoves s hin⟩
  | .command cmd now :: rest => rw [step_of_command hin]; exact runCommand_completes cmd _
  | .overlapped cmd now :: rest => exact absurd hin (hno cmd now rest)
  | .hardwareReset :: rest => exact ⟨_, step_of_hardwareReset hin⟩

/-! ### The construction of a block -/

/-- Five slots hold five distinct roles exactly when they hold every role (00_scope.md R12). -/
theorem roles_nodup_iff_forall_mem (roles : Vector Role 5) : roles.toList.Nodup ↔ ∀ r, r ∈ roles.toList := by
  constructor
  · intro h r
    exact mem_roleOfSlot { Config.default with roleOfSlot := roles, roles_nodup := h } r
  · intro h
    have hall : [Role.bd, .hh, .sd, .tom, .cym].Nodup := by decide
    have hperm := (hall.subperm fun r _ => h r).perm_of_length_le (by simp)
    exact hperm.nodup hall

theorem mem_roles_iff_exists_slot (roles : Vector Role 5) (r : Role) :
    r ∈ roles.toList ↔ ∃ k : Fin 5, roles[k] = r := by
  simp [Vector.mem_iff_getElem, Fin.exists_iff]

section
variable {fsam aRhy aFlo aCtl aVol : Nat} {roles : Vector Role 5}

/-- A built block holds the parameters given. -/
theorem parameters_of_build {c : Config} (h : Config.build fsam aRhy aFlo aCtl aVol roles = some c) :
    c.fsam = fsam ∧ c.aRhy.toNat = aRhy ∧ c.aFlo.val = aFlo ∧ c.aCtl.val = aCtl ∧ c.aVol.val = aVol ∧
      c.roleOfSlot = roles := by
  unfold Config.build at h
  split at h
  · next hvalid =>
      have ⟨_, hrhy, _⟩ := hvalid
      obtain rfl := Option.some.inj h
      exact ⟨rfl, BitVec.toNat_ofNat .. ▸ Nat.mod_eq_of_lt hrhy, rfl, rfl, rfl, rfl⟩
  · simp at h

theorem exists_build_iff :
    (∃ c, Config.build fsam aRhy aFlo aCtl aVol roles = some c) ↔
      0 < fsam ∧ aRhy < 256 ∧ aFlo < 248 ∧ aCtl < 248 ∧ aVol < 248 ∧ roles.toList.Nodup := by
  unfold Config.build
  split
  · next hvalid => exact ⟨fun _ => hvalid, fun _ => ⟨_, rfl⟩⟩
  · next hinvalid => exact ⟨fun ⟨_, h⟩ => (nomatch h), fun hvalid => absurd hvalid hinvalid⟩

end

/-- Settles O48: the configuration carries the proof of FSAM, and distinct roles are all the roles. -/
theorem onlyValidParametersBuildABlock : Obligations.OnlyValidParametersBuildABlock := by
  refine ⟨fun s => s.config.fsam_pos, fun fsam aRhy aFlo aCtl aVol roles => ⟨fun _ => parameters_of_build, ?_⟩⟩
  simp only [exists_build_iff, roles_nodup_iff_forall_mem, mem_roles_iff_exists_slot, Nat.lt_succ_iff, Nat.succ_le_iff]

end Sys2Proof.Machine

/-! ## Reset, 70_reset_and_hazards.md -/

namespace Sys2Proof.Machine

/-! ### The reset state -/

/-- Every register of the state after reset already has its reset value, so what `resetRegisters` establishes holds of
it (70_reset_and_hazards.md R220). -/
theorem resetRegisters_reset : resetRegisters State.reset = State.reset := rfl

@[simp] theorem reset_channel (ch : Chan) : State.reset.channel ch = Channel.reset :=
  resetRegisters_channel State.reset ch

/-- Settles O35: the channels are nine copies of `Channel.reset`, and an empty SHADOW reads as none everywhere. -/
theorem resetValues : Obligations.ResetValues :=
  ⟨reset_channel, rfl, rfl, rfl, Memory.read_nil, rfl⟩

/-! ### The hardware reset as a step -/

/-- Settles O36: the reset rewrites the registers and takes only itself off the host's list. -/
theorem hardwareResetStep : Obligations.HardwareResetStep := by
  intro rest s h
  rw [step_of_hardwareReset h, resetRegisters_eq]

/-! ### The invariants at reset -/

theorem shadowInMap_of_empty {s : State} (hs : s.shadow = []) : ShadowInMap s := by
  intro a d hread
  simp [hs] at hread

theorem latchNotFlo_of_invalid {s : State} (hv : s.lastValid = false) : LatchNotFlo s := by
  intro hvalid
  simp [hv] at hvalid

/-- Settles O39: an invalid cache and an empty SHADOW claim nothing of any chip or address. -/
theorem resetMeetsTheInvariants : Obligations.ResetMeetsTheInvariants := by
  have hvalid : State.reset.lastValid = false := rfl
  have hshadow : State.reset.shadow = [] := rfl
  have hagree : RegistersAgree State.reset := resetRegisters_reset ▸ registersAgree_resetRegisters State.reset
  exact ⟨hagree, imageTrue_of_cleared hvalid hshadow, shadowInMap_of_empty hshadow, latchNotFlo_of_invalid hvalid⟩

end Sys2Proof.Machine
